-- ==== Sys2Proof/Word.lean ====
section
/-! DEFINITION. The word types of the RLE decoder (00_scope.md R5, R7): every quantity is unsigned; bytes,
16-bit words, 32-bit host words, and the two colour records of 10_state.md R18, R19. -/

namespace Sys2Proof

/-- A stream byte, palette index, colour channel or delta operand: 8 bits (R5, R7). -/
abbrev Byte := BitVec 8

/-- `dim` and `col`: 16 bits (R5, R8). -/
abbrev Word16 := BitVec 16

/-- A host-side register value: 32 bits (R17). -/
abbrev Word32 := BitVec 32

/-- One cell of the RGB plane: the triple (red, green, blue) of R19. -/
structure Rgb where
  red : Byte
  green : Byte
  blue : Byte
  deriving DecidableEq, Repr, Inhabited

/-- One palette entry: the record (r, g, b, a) of R18. -/
structure Color where
  r : Byte
  g : Byte
  b : Byte
  a : Byte
  deriving DecidableEq, Repr, Inhabited

/-- What one paint writes to one cell of the three planes together (R37). -/
structure Pixel where
  rgb : Rgb
  alpha : Byte
  index : Byte
  deriving DecidableEq, Repr, Inhabited

/-- The RGB part of a palette entry: what the RGB plane gets (R82). -/
def Color.rgb (c : Color) : Rgb := ⟨c.r, c.g, c.b⟩

end Sys2Proof
end

