-- ==== Sys2Proof/Syntax.lean ====
section
/-! DEFINITION. The instruction set: the five units of 30_encoding.md R50 and R55, one constructor per row of
spec/opcode_table.json. A unit's kind and length are determined by its two header bytes alone (R50, R58); the
operand bytes of `DELTA` and `ABS` stay in the stream and are fetched one at a time by the unit's own meaning
(42_sequencer.md R91, R92), so a constructor holds exactly what the header gives (R52). -/

namespace Sys2Proof

inductive Instr where
  /-- `ESC0`, header `00 00`: the one illegal unit (R114). -/
  | esc0
  /-- `END`, header `00 01`: the end marker (R111). -/
  | endMarker
  /-- `DELTA`, header `00 02`; dX and dY are the next two stream bytes (R112). -/
  | delta
  /-- `ABS`, header `00 n` with n in 3..255; n - 2 literal bytes follow (R102). -/
  | abs (n : Byte)
  /-- `ENC count, idx`, header `count idx` with count in 1..255 (R101). -/
  | enc (count idx : Byte)
  deriving DecidableEq, Repr

/-- The five kinds, without their fields: one per row of spec/opcode_table.json (R55). -/
inductive UnitKind where
  | esc0 | endMarker | delta | abs | enc
  deriving DecidableEq, Repr

/-- The row of the opcode table an instruction belongs to. -/
def Instr.kind : Instr → UnitKind
  | .esc0 => .esc0
  | .endMarker => .endMarker
  | .delta => .delta
  | .abs _ => .abs
  | .enc _ _ => .enc

/-- A line of the assembly syntax of R60. -/
inductive AsmLine where
  | enc (count idx : Byte)
  | abs (lits : List Byte)
  | delta (dX dY : Byte)
  | endMarker
  | esc0
  | bytes (bs : List Byte)
  deriving DecidableEq, Repr

end Sys2Proof
end

