-- ==== Sys2Proof/WellFormed.lean ====
section
/-! DEFINITION. Which instructions some header spells: the operand ranges of 30_encoding.md R50. An `ENC` with
count 0 and an `ABS` with n below 3 are spelt by no header (R54). -/

namespace Sys2Proof

def Instr.wellFormed : Instr → Bool
  | .esc0 => true
  | .endMarker => true
  | .delta => true
  | .abs n => decide (3 ≤ n.toNat)
  | .enc count _ => decide (1 ≤ count.toNat)

end Sys2Proof
end

