-- ==== Sys2Proof/Decode.lean ====
section
/-! DEFINITION. The decoder and the encoder (30_encoding.md R50 to R60). `decode` is total on all 65536 headers
(R52, R55, R56); `decodeUnit` frames a whole unit out of a list of bytes and answers by name when the bytes run
out; `encode`, `encodeUnit` and `assemble` go the other way. -/

namespace Sys2Proof

/-- The dispatch of R52, from the two header bytes. -/
def decode (b0 b1 : Byte) : Instr :=
  if b0 ≠ 0#8 then .enc b0 b1
  else if b1 = 0#8 then .esc0
  else if b1 = 1#8 then .endMarker
  else if b1 = 2#8 then .delta
  else .abs b1

/-- How many operand bytes follow the header (R50, R58): 2 for `DELTA`, n - 2 for `ABS`, none otherwise. -/
def Instr.operandCount : Instr → Nat
  | .esc0 => 0
  | .endMarker => 0
  | .delta => 2
  | .abs n => n.toNat - 2
  | .enc _ _ => 0

/-- The length of a unit in bytes (R58). -/
def Instr.unitLength (i : Instr) : Nat := 2 + i.operandCount

/-- What a list of bytes holds at its front. -/
inductive Decoded where
  /-- A whole unit: its instruction, its operand bytes in stream order, and the bytes after it. -/
  | whole (i : Instr) (operands rest : List Byte)
  /-- No byte at all: the end of the stream at a unit boundary (R95 (a)). -/
  | noByte
  /-- One byte only: no unit is recognised without its second byte (R93, R129 (a)). -/
  | loneByte (b0 : Byte)
  /-- A header whose operand bytes are not all there (R58, last sentence; R95 (c), (d)). -/
  | cut (i : Instr) (present : List Byte)
  deriving DecidableEq, Repr

/-- Framing of one unit (R35, R58, R59). -/
def decodeUnit : List Byte → Decoded
  | [] => .noByte
  | [b0] => .loneByte b0
  | b0 :: b1 :: bs =>
    if bs.length < (decode b0 b1).operandCount then .cut (decode b0 b1) bs
    else .whole (decode b0 b1) (bs.take (decode b0 b1).operandCount) (bs.drop (decode b0 b1).operandCount)

/-- The header bytes of an instruction (R50). -/
def encode : Instr → Byte × Byte
  | .esc0 => (0#8, 0#8)
  | .endMarker => (0#8, 1#8)
  | .delta => (0#8, 2#8)
  | .abs n => (0#8, n)
  | .enc count idx => (count, idx)

/-- The bytes of a whole unit: header, then operands (R50). -/
def encodeUnit (i : Instr) (operands : List Byte) : List Byte :=
  (encode i).1 :: (encode i).2 :: operands

/-- The header as one 16-bit word, b0 in bits 15..8 (R51). -/
def headerWord (b0 b1 : Byte) : Word16 := b0 ++ b1

/-- The bytes an assembly line emits, or none where an assembler must refuse it (R60). -/
def assemble : AsmLine → Option (List Byte)
  | .enc count idx => if count = 0#8 then none else some [count, idx]
  | .abs lits =>
    if 1 ≤ lits.length ∧ lits.length ≤ 253 then some (0#8 :: BitVec.ofNat 8 (lits.length + 2) :: lits) else none
  | .delta dX dY => some [0#8, 2#8, dX, dY]
  | .endMarker => some [0#8, 1#8]
  | .esc0 => some [0#8, 0#8]
  | .bytes bs => some bs

/-- The match and mask of one opcode-table row (R55); `exact` is the row's exact range, the table's constraint. -/
def rowMatch : UnitKind → Word16
  | .esc0 => 0x0000#16
  | .endMarker => 0x0001#16
  | .delta => 0x0002#16
  | .abs => 0x0000#16
  | .enc => 0x0000#16

def rowMask : UnitKind → Word16
  | .esc0 => 0xFFFF#16
  | .endMarker => 0xFFFF#16
  | .delta => 0xFFFF#16
  | .abs => 0xFF00#16
  | .enc => 0x0000#16

/-- The rows in the table's order, which is a first-match order (R55). -/
def opcodeRows : List UnitKind := [.esc0, .endMarker, .delta, .abs, .enc]

/-- The first row whose masked bits agree with the header word (R55). -/
def firstMatch (h : Word16) : Option UnitKind :=
  opcodeRows.find? (fun k => h &&& rowMask k == rowMatch k)

/-- The row's constraint on the two header bytes, as the table's "constraint" says it (R55). -/
def rowConstraint (k : UnitKind) (b0 b1 : Byte) : Bool :=
  match k with
  | .esc0 => decide (b0.toNat = 0 ∧ b1.toNat = 0)
  | .endMarker => decide (b0.toNat = 0 ∧ b1.toNat = 1)
  | .delta => decide (b0.toNat = 0 ∧ b1.toNat = 2)
  | .abs => decide (b0.toNat = 0 ∧ 3 ≤ b1.toNat)
  | .enc => decide (b0.toNat ≠ 0)

/-- Byte j of an instruction whose bits are w, numbered as the opcode table numbers them: the first 16-bit word is
the header with b0 in bits 15..8 (R51), and a later word's bits count on from it, its first byte the higher one. -/
def tableByte (nbits w j : Nat) : Byte :=
  BitVec.ofNat 8 ((w % 2 ^ nbits) / 2 ^ (16 * (j / 2) + (if j % 2 = 0 then 8 else 0)))

/-- The instruction's bytes in stream order, as many as its header says (R58), zeros above nbits. -/
def tableBytes (nbits w : Nat) : List Byte :=
  (List.range (decode (tableByte nbits w 0) (tableByte nbits w 1)).unitLength).map (tableByte nbits w)

/-- The instruction the decoder reads from a table word. -/
def decodeTableWord (nbits w : Nat) : Option Instr :=
  match decodeUnit (tableBytes nbits w) with
  | .whole i _ _ => some i
  | .noByte => none
  | .loneByte _ => none
  | .cut _ _ => none

end Sys2Proof
end

