-- ==== Sys2Proof/Config.lean ====
section
/-! DEFINITION. What an implementation or a loader fixes (00_scope.md R5, R6; 93_implementation_defined.md U9,
U20, U21) and the one free value of the model. -/

namespace Sys2Proof

/-- The contents of a palette entry that nothing has loaded since the n-th hardware reset: any value
(93_implementation_defined.md U15). No body: nothing can be proved of it. Log entry 6. DESIGN CHOICE, safe. -/
opaque Config.unloadedPalette : Nat → Byte → Color

/-- The two open widths of R6 (92_eei_decisions.md, parameters left open): of the row register and of pos,
unit_pos and len. They are arguments of the host's register accesses; no step depends on them. -/
structure Config.Widths where
  rowW : Nat
  posW : Nat
  deriving DecidableEq, Repr

/-- The spec's defaults, 32 and 32 (R6). -/
def Config.defaultWidths : Config.Widths := ⟨32, 32⟩

/-- ROW_W is at least 16 (R6, R12); with at most 32 bits every field fits its 32-bit register (R17). -/
abbrev Config.Widths.ok (w : Config.Widths) : Prop := 16 ≤ w.rowW ∧ w.rowW ≤ 32 ∧ w.posW ≤ 32

/-- The header literals of the input file, parameters of a loader (93_implementation_defined.md U9). -/
structure Config.HeaderLayout where
  dimOffset : Nat
  palOffset : Nat
  deriving DecidableEq, Repr

/-- The document's values: dim at 4, palette at 24 (R39, R143, R144). UNVERIFIED (the scope note calls the literals
unaudited), log entry 17. -/
def Config.documentLayout : Config.HeaderLayout := ⟨4, 24⟩

/-- PAL_ENTRIES and the four bytes of an entry in the file (R5, R144). -/
def Config.palEntries : Nat := 256

end Sys2Proof
end

