-- ==== Sys2Proof/Machine/State.lean ====
section
/-! DEFINITION. The state of the RLE decoder state machine: every piece of state and configuration of 10_state.md,
as plain data, and its value after hardware reset (R26). -/

namespace Sys2Proof.Machine

open Sys2Proof

/-- The codes of the status register (R16). Code 4 belongs to the loader; code 7 is never produced. -/
inductive Status where
  | idle
  | running
  | endMarker
  | streamExhausted
  | errTruncatedHeader
  | errInvalidEscape
  | errRowOverflow
  deriving DecidableEq, Repr

/-- The phases of the micro-step machine (R24, R97). FETCH_B1 carries the held b0, which lives only from FETCH_B0
to FETCH_B1 (R97). -/
inductive Phase where
  | fetchB0
  | fetchB1 (b0 : Byte)
  | fetchDx
  | fetchDy
  | absFetch
  | absPaint
  | encPaint
  | halted
  deriving DecidableEq, Repr

/-- A memory: what an unlisted address reads as, and the listed cells, addresses strictly rising, none equal to
`fill`. `fill = none` says that an unlisted address holds no value. Log entries 3, 4, 5, 20. -/
structure Memory (α : Type) where
  fill : Option α
  cells : List (Nat × α)
  deriving DecidableEq, Repr

/-- Why the machine stops without a next state. -/
inductive Fault where
  /-- Raised by the stream fetch (`nextByte`, R92) when the byte at `addr` is below len but nothing ever loaded it:
  a breach of launch premise StreamLoaded (R149), which 93_implementation_defined.md U18 says to refuse. SAFE: the
  model stops where a machine would go on with whatever byte it finds. Log entry 5. -/
  | streamNotLoaded (addr : Nat)
  deriving DecidableEq, Repr

/-- Why an instruction has no meaning. -/
inductive Refusal where
  /-- Raised by an arm of `exec` whose instruction has no meaning yet; no arm of this model does. SAFE. -/
  | notModelled (mnemonic : String)
  deriving DecidableEq, Repr

structure State where
  /-- The cursor row (R12): an unbounded natural number, never decremented. -/
  row : Nat
  /-- The cursor column (R13): 16 bits. -/
  col : Word16
  /-- The stream read position, the program counter (R14). -/
  pos : Nat
  /-- The stream index of the current unit's b0 (R15). -/
  unitPos : Nat
  /-- The status register (R16). -/
  status : Status
  /-- The RGB plane, keyed by linear cell address (R19, R32). -/
  rgb : Memory Rgb
  /-- The alpha plane (R19, R32). -/
  alpha : Memory Byte
  /-- The palette-index plane (R19, R32). -/
  index : Memory Byte
  /-- The dimension in force, latched at start (R20, R146). -/
  dim : Word16
  /-- The stream length in force, latched at start (R22, R146). -/
  len : Nat
  /-- The host register DIM (R17). -/
  dimReg : Word16
  /-- The host register STREAM_LEN (R17). -/
  streamLenReg : Word32
  /-- The stream memory (R22, R30). -/
  stream : Memory Byte
  /-- The palette memory, keyed by entry (R18, R21, R30). -/
  palette : Memory Color
  /-- Micro-step phase (R24). -/
  phase : Phase
  /-- Pixels of the current run still to paint (R24). -/
  rem : Byte
  /-- Palette index latch (R24). -/
  idxLatch : Byte
  /-- dX latch (R24). -/
  dxLatch : Byte
  /-- The MODEL'S OWN field: how many hardware resets there were, so that the contents of palette entries nobody
  loaded are fresh after each. Log entry 6. -/
  paletteEpoch : Nat
  deriving DecidableEq, Repr

/-- A memory in which no address holds a value. -/
def Memory.blank {α : Type} : Memory α := ⟨none, []⟩

/-- Right after hardware reset (R26). The latched dim and len have no reset value in the spec: DESIGN CHOICE 0, log
entry 8. The three planes and the two memories hold no value (R26, log entries 3, 5, 6). -/
def State.reset : State where
  row := 0
  col := 0#16
  pos := 0
  unitPos := 0
  status := .idle
  rgb := Memory.blank
  alpha := Memory.blank
  index := Memory.blank
  dim := 0#16
  len := 0
  dimReg := 0#16
  streamLenReg := 0#32
  stream := Memory.blank
  palette := Memory.blank
  phase := .fetchB0
  rem := 0#8
  idxLatch := 0#8
  dxLatch := 0#8
  paletteEpoch := 0

end Sys2Proof.Machine
end

