-- ==== Sys2Proof/Machine/Ops.lean ====
section
/-! DEFINITION. The named operations over memories and registers: memory read and write, the stream fetch, halting
(the one way an exception is taken), the cursor, the address generator, the palette lookup, paint, pre-fill, the
start command and hardware reset. -/

namespace Sys2Proof.Machine

open Sys2Proof

/-! ### Memories -/

/-- The value listed for an address, if any. -/
def Memory.lookup {α : Type} : List (Nat × α) → Nat → Option α
  | [], _ => none
  | (k, v) :: rest, a => if k = a then some v else Memory.lookup rest a

/-- What a read of an address gives: the listed value, else the fill; `none` is 'holds no value'. -/
def Memory.read {α : Type} (m : Memory α) (a : Nat) : Option α :=
  match Memory.lookup m.cells a with
  | some v => some v
  | none => m.fill

/-- Sorted insertion, replacing an entry of the same address. -/
def Memory.insertCell {α : Type} : List (Nat × α) → Nat → α → List (Nat × α)
  | [], a, v => [(a, v)]
  | (k, w) :: rest, a, v =>
    if a < k then (a, v) :: (k, w) :: rest
    else if a = k then (a, v) :: rest
    else (k, w) :: Memory.insertCell rest a v

/-- Removal of the entry of an address. -/
def Memory.eraseCell {α : Type} (cells : List (Nat × α)) (a : Nat) : List (Nat × α) :=
  cells.filter (fun c => c.1 ≠ a)

/-- A write of one address, in canonical form: writing the fill removes the entry. -/
def Memory.write {α : Type} [DecidableEq α] (m : Memory α) (a : Nat) (v : α) : Memory α :=
  if m.fill = some v then { m with cells := Memory.eraseCell m.cells a }
  else { m with cells := Memory.insertCell m.cells a v }

/-- A write of consecutive addresses, the first value at `a`. -/
def Memory.writeList {α : Type} [DecidableEq α] (m : Memory α) (a : Nat) : List α → Memory α
  | [] => m
  | v :: vs => (Memory.writeList m (a + 1) vs).write a v

/-- Every address holds `v`: the canonical form of a pre-filled plane (R84, log entry 4). -/
def Memory.filled {α : Type} (v : α) : Memory α := ⟨some v, []⟩

/-- The canonical form: addresses strictly rising, no entry equal to what an unlisted address reads as. -/
abbrev Memory.wf {α : Type} [DecidableEq α] (m : Memory α) : Prop :=
  m.cells.Pairwise (fun c d => c.1 < d.1) ∧ ∀ c ∈ m.cells, m.fill ≠ some c.2

/-- The addresses from `a` on hold these values. -/
def Memory.holds {α : Type} [DecidableEq α] (m : Memory α) (a : Nat) : List α → Bool
  | [] => true
  | v :: vs => decide (m.read a = some v) && Memory.holds m (a + 1) vs

/-! ### Sequencing inside a unit step -/

/-- What an operation inside a unit step answers. -/
inductive Flow (α : Type) where
  /-- It completed; the step goes on. -/
  | go (a : α) (s : State)
  /-- It ended the session: the rest of the step is not executed and every earlier effect is kept (R91, R128). -/
  | stop (s : State)
  /-- The machine stops with a fault. -/
  | fault (f : Fault)
  deriving DecidableEq, Repr

/-- The outcome of a unit whose last operation answered `f`. -/
def Flow.outcome {α : Type} : Flow α → Host.Outcome State Fault Refusal
  | .go _ s => .next s
  | .stop s => .next s
  | .fault f => .fault f

/-- One operation after another. -/
def Flow.andThen {α β : Type} : Flow α → (α → State → Flow β) → Flow β
  | .go a s, k => k a s
  | .stop s, _ => .stop s
  | .fault f, _ => .fault f

/-- An outcome with its next state changed. -/
def mapNext (f : State → State) : Host.Outcome State Fault Refusal → Host.Outcome State Fault Refusal
  | .next s => .next (f s)
  | .fault e => .fault e
  | .refused r => .refused r

/-! ### Halting -/

/-- Taking an exception, or any other end of a session (R127): the code goes into status, the micro-step machine is
HALTED (R97), nothing else is saved or changed. There is no return (R130); the ways out are `startCommand` and
`hardwareReset` below. -/
def halt (code : Status) (s : State) : State :=
  { s with status := code, phase := .halted }

/-! ### Stream fetch -/

/-- `next_byte()` (R92): the only way a stream byte is consumed. -/
def nextByte (s : State) : Flow Byte :=
  if s.len ≤ s.pos then .stop (halt .streamExhausted s)
  else
    match s.stream.read s.pos with
    | some v => .go v { s with pos := s.pos + 1 }
    | none => .fault (.streamNotLoaded s.pos)

/-! ### Cursor -/

/-- `advance()` (R71). The sum is formed exactly, so it never wraps (R75). -/
def advance (s : State) : State :=
  if s.col.toNat + 1 = s.dim.toNat then { s with col := 0#16, row := s.row + 1 }
  else { s with col := BitVec.ofNat 16 (s.col.toNat + 1) }

/-- `jump(dX, dY)` (R72): row gets dY always, the column is clamped to 0 when the exact sum reaches dim (C6, D20). -/
def jump (dX dY : Byte) (s : State) : State :=
  if s.dim.toNat ≤ s.col.toNat + dX.toNat then { s with row := s.row + dY.toNat, col := 0#16 }
  else { s with row := s.row + dY.toNat, col := BitVec.ofNat 16 (s.col.toNat + dX.toNat) }

/-! ### Address generator -/

/-- The linear address of a cell (R32, R74). -/
def linearAddr (dim : Word16) (row col : Nat) : Nat := row * dim.toNat + col

/-- `valid` of the address generator: the paint's bounds check (R74). -/
def cursorValid (s : State) : Bool := decide (s.row < s.dim.toNat ∧ s.col.toNat < s.dim.toNat)

/-- The linear address of the cursor's cell (R74). -/
def cursorAddr (s : State) : Nat := linearAddr s.dim s.row s.col.toNat

/-! ### Palette, paint, pre-fill -/

/-- Palette resolution (R80): total on all 256 indices; an entry nobody loaded is a free value (log entry 6). -/
def paletteEntry (s : State) (i : Byte) : Color :=
  match s.palette.read i.toNat with
  | some c => c
  | none => Config.unloadedPalette s.paletteEpoch i

/-- The pixel a paint of index i writes: the entry's RGB, its alpha, the raw index (R82). -/
def resolve (s : State) (i : Byte) : Pixel :=
  ⟨(paletteEntry s i).rgb, (paletteEntry s i).a, i⟩

/-- One indivisible write of a cell of all three planes (R37). -/
def writePixel (a : Nat) (p : Pixel) (s : State) : State :=
  { s with rgb := s.rgb.write a p.rgb, alpha := s.alpha.write a p.alpha, index := s.index.write a p.index }

/-- `paint(i)` (R82): check, then write at the cursor, then advance (R81). -/
def paint (i : Byte) (s : State) : Flow Unit :=
  if cursorValid s then .go () (advance (writePixel (cursorAddr s) (resolve s i) s))
  else .stop (halt .errRowOverflow s)

/-- `prefill()` (R84): every cell of every plane gets palette entry 0; the cursor is not touched. -/
def prefill (s : State) : State :=
  { s with
    rgb := Memory.filled (resolve s 0#8).rgb
    alpha := Memory.filled (resolve s 0#8).alpha
    index := Memory.filled 0#8 }

/-! ### Start command and hardware reset: the two ways out of a halt (R130) -/

/-- The start transition (R146, R27). -/
def startSession (s : State) : State :=
  prefill { s with
    dim := s.dimReg
    len := s.streamLenReg.toNat
    row := 0
    col := 0#16
    pos := 0
    unitPos := 0
    phase := .fetchB0
    rem := 0#8
    status := .running }

/-- The start command: ignored while RUNNING (R148) and with DIM = 0 (R147). -/
def startCommand (s : State) : State :=
  if s.status = .running ∨ s.dimReg = 0#16 then s else startSession s

/-- The reset input (R140): registers at their reset values; planes, palette and stream memory unspecified, hence
without values (log entries 3, 5, 6, 7). -/
def hardwareReset (s : State) : State :=
  { State.reset with paletteEpoch := s.paletteEpoch + 1 }

/-! ### Placing an instruction where the next step fetches (for the host's probe; log entry 14) -/

/-- Bytes placed at the read position of a session in progress, or else loaded at stream address 0 and a session
started on them. -/
def placeUnit (bytes : List Byte) (s : State) : State :=
  if s.status = .running then
    { s with stream := s.stream.writeList s.pos bytes, len := max s.len (s.pos + bytes.length) }
  else
    startSession { s with
      stream := s.stream.writeList 0 bytes
      streamLenReg := BitVec.ofNat 32 bytes.length
      dimReg := if s.dimReg = 0#16 then 16#16 else s.dimReg }

end Sys2Proof.Machine
end

