-- ==== Sys2Proof/Machine/Operands.lean ====
section
/-! DEFINITION. Operand forms (30_encoding.md R53) and their fetches, and the port packings of 20_memory.md R33. -/

namespace Sys2Proof.Machine

open Sys2Proof

/-- The pixel count of an encoded run: b0 as it stands (R53). -/
def encCount (count : Byte) : Nat := count.toNat

/-- The pixel count of an absolute run: b1 - 2, exact (R53, R103). -/
def absCount (n : Byte) : Nat := n.toNat - 2

/-- The header fetch of the unit step (R91, R93): the end test at the unit boundary leaves unit_pos alone; otherwise
unit_pos is latched and b0, b1 are consumed. -/
def fetchHeader (s : State) : Flow (Byte × Byte) :=
  if s.len ≤ s.pos then .stop (halt .streamExhausted s)
  else
    (nextByte { s with unitPos := s.pos }).andThen fun b0 s1 =>
      (nextByte s1).andThen fun b1 s2 => .go (b0, b1) s2

/-- The two operands of `DELTA`, dX then dY (R112). -/
def fetchDelta (s : State) : Flow (Byte × Byte) :=
  (nextByte s).andThen fun dX s1 => (nextByte s1).andThen fun dY s2 => .go (dX, dY) s2

/-- The RGB triple on a 24-bit data path: red in 23..16, green in 15..8, blue in 7..0 (R33). -/
def packRgb (c : Rgb) : BitVec 24 := c.red ++ c.green ++ c.blue

/-- A palette entry on a 32-bit data path: r in 31..24 down to a in 7..0 (R33). -/
def packColor (c : Color) : Word32 := c.r ++ c.g ++ c.b ++ c.a

end Sys2Proof.Machine
end

