-- ==== Sys2Proof/Machine/Escape.lean ====
section
/-! DEFINITION. The escape units END, DELTA and ESC0 (44_escape_units.md). On entry the header has been consumed
and pos = unit_pos + 2. -/

namespace Sys2Proof.Machine

open Sys2Proof

/-- `ESC0` (R114): raises InvalidEscape. -/
def execEsc0 (s : State) : Host.Outcome State Fault Refusal :=
  .next (halt .errInvalidEscape s)

/-- `END` (R111): halts with END_MARKER. -/
def execEndMarker (s : State) : Host.Outcome State Fault Refusal :=
  .next (halt .endMarker s)

/-- `DELTA` (R112): no jump at all unless both operands are there. -/
def execDelta (s : State) : Host.Outcome State Fault Refusal :=
  ((fetchDelta s).andThen fun d s1 => .go () (jump d.1 d.2 s1)).outcome

end Sys2Proof.Machine
end

