-- ==== Sys2Proof/Machine/Paint.lean ====
section
/-! DEFINITION. The paint units ENC and ABS (43_paint_units.md). On entry the header has been consumed and
pos = unit_pos + 2. -/

namespace Sys2Proof.Machine

open Sys2Proof

/-- n paints of the same index, stopping at the first that fails (R101). -/
def paintRun (idx : Byte) : Nat → State → Flow Unit
  | 0, s => .go () s
  | n + 1, s => (paint idx s).andThen fun _ s1 => paintRun idx n s1

/-- n times: fetch a literal, then paint it (R102, D9). -/
def paintLiterals : Nat → State → Flow Unit
  | 0, s => .go () s
  | n + 1, s => (nextByte s).andThen fun lit s1 => (paint lit s1).andThen fun _ s2 => paintLiterals n s2

/-- `ENC count, idx` (R101). -/
def execEnc (count idx : Byte) (s : State) : Host.Outcome State Fault Refusal :=
  (paintRun idx (encCount count) s).outcome

/-- `ABS` with biased count n (R102). -/
def execAbs (n : Byte) (s : State) : Host.Outcome State Fault Refusal :=
  (paintLiterals (absCount n) s).outcome

end Sys2Proof.Machine
end

