-- ==== Sys2Proof/Machine/Dispatch.lean ====
section
/-! DEFINITION. The dispatch of the unit step (42_sequencer.md R91): one arm per constructor of Instr. -/

namespace Sys2Proof.Machine

open Sys2Proof

def exec (i : Instr) (s : State) : Host.Outcome State Fault Refusal :=
  match i with
  | .esc0 => Sys2Proof.Machine.execEsc0 s
  | .endMarker => Sys2Proof.Machine.execEndMarker s
  | .delta => Sys2Proof.Machine.execDelta s
  | .abs n => Sys2Proof.Machine.execAbs n s
  | .enc count idx => Sys2Proof.Machine.execEnc count idx s

end Sys2Proof.Machine
end

