-- ==== Sys2Proof/Machine/Step.lean ====
section
/-! DEFINITION. One step of the machine: one whole unit (42_sequencer.md R90, R91), and the placing of an
instruction where the next step fetches it. -/

namespace Sys2Proof.Machine

open Sys2Proof

/-- The unit step (R91). Outside RUNNING the block has no step and changes nothing (R90): the answer is the same
state. DEDUCED, log entry 2; the step is taken at unit boundaries, log entry 1. -/
def step (s : State) : Host.Outcome State Fault Refusal :=
  if s.status = .running then
    match fetchHeader s with
    | .go h s1 => exec (decode h.1 h.2) s1
    | .stop s1 => .next s1
    | .fault f => .fault f
  else .next s

/-- s with that instruction where step fetches its next one (log entry 14). -/
def State.withFetchWord (s : State) (nbits w : Nat) : State := placeUnit (tableBytes nbits w) s

end Sys2Proof.Machine
end

