-- ==== Sys2Proof/Machine/Finite.lean ====
section
/-! DEFINITION. The finite implementation of 10_state.md R12: the row register has ROW_W bits and saturates. -/

namespace Sys2Proof.Machine

open Sys2Proof

/-- The row a ROW_W-bit saturating register holds. -/
def saturateRow (rowW : Nat) (s : State) : State := { s with row := min s.row (2 ^ rowW - 1) }

/-- A step of the finite implementation: every row it leaves is saturated. -/
def finiteStep (rowW : Nat) (s : State) : Host.Outcome State Fault Refusal :=
  mapNext (saturateRow rowW) (step s)

/-- k steps of a step function, stopping at the first fault or refusal. -/
def runWith (f : State → Host.Outcome State Fault Refusal) : Nat → State → Host.Outcome State Fault Refusal
  | 0, s => .next s
  | k + 1, s =>
    match f s with
    | .next s1 => runWith f k s1
    | .fault e => .fault e
    | .refused r => .refused r

end Sys2Proof.Machine
end

