-- ==== Sys2Proof/Machine/Flags.lean ====
section
/-! DEFINITION. The one flag register, `status` (10_state.md R16): its codes and the predicates over it. No unit
reads a flag, and there are no condition codes (R16). -/

namespace Sys2Proof.Machine

open Sys2Proof

/-- The 3-bit code of a status (R16). -/
def Status.code : Status → BitVec 3
  | .idle => 0#3
  | .running => 1#3
  | .endMarker => 2#3
  | .streamExhausted => 3#3
  | .errTruncatedHeader => 4#3
  | .errInvalidEscape => 5#3
  | .errRowOverflow => 6#3

/-- The halt codes 2, 3, 5 and 6 (R16). -/
def Status.isHalt : Status → Bool
  | .idle => false
  | .running => false
  | .endMarker => true
  | .streamExhausted => true
  | .errTruncatedHeader => false
  | .errInvalidEscape => true
  | .errRowOverflow => true

/-- The document's DecodeStatus: the two successful ends (R120). -/
def Status.isSuccess : Status → Bool
  | .idle => false
  | .running => false
  | .endMarker => true
  | .streamExhausted => true
  | .errTruncatedHeader => false
  | .errInvalidEscape => false
  | .errRowOverflow => false

/-- The optional `done` wire (R131). -/
def done (s : State) : Bool := s.status.isHalt

end Sys2Proof.Machine
end

