-- ==== Sys2Proof/Machine/HostPort.lean ====
section
/-! DEFINITION. What the host may do (10_state.md R17; 70_reset_and_hazards.md R146 to R155): register reads and
writes, loading the stream and palette memories, reading plane cells. A move the spec leaves without a defined
effect is a move the host does not have: `none`. -/

namespace Sys2Proof.Machine

open Sys2Proof

/-- The register map of R17. -/
inductive Reg where
  | ctrl | status | dim | streamLen | pos | unitPos | curRow | curCol
  deriving DecidableEq, Repr

/-- The offsets of R17. -/
def Reg.offset : Reg → Nat
  | .ctrl => 0x00
  | .status => 0x04
  | .dim => 0x08
  | .streamLen => 0x0C
  | .pos => 0x10
  | .unitPos => 0x14
  | .curRow => 0x18
  | .curCol => 0x1C

/-- The register at an offset; an offset that is none of R17's is not part of the block (U22). -/
def Reg.atOffset (off : Nat) : Option Reg :=
  [Reg.ctrl, .status, .dim, .streamLen, .pos, .unitPos, .curRow, .curCol].find? (fun r => r.offset == off)

/-- The 32-bit value of a register whose value is defined (R17): unlisted bits 0, CUR_ROW saturated (R12). -/
def regValue (w : Config.Widths) (r : Reg) (s : State) : Word32 :=
  match r with
  | .ctrl => 0#32
  | .status => s.status.code.zeroExtend 32
  | .dim => s.dimReg.zeroExtend 32
  | .streamLen => BitVec.ofNat 32 (s.streamLenReg.toNat % 2 ^ w.posW)
  | .pos => BitVec.ofNat 32 (s.pos % 2 ^ w.posW)
  | .unitPos => BitVec.ofNat 32 (s.unitPos % 2 ^ w.posW)
  | .curRow => BitVec.ofNat 32 (min s.row (2 ^ w.rowW - 1))
  | .curCol => s.col.zeroExtend 32

/-- A host read (R17, R151): while RUNNING only STATUS has a defined value (log entry 11). -/
def hostRead (w : Config.Widths) (r : Reg) (s : State) : Option Word32 :=
  if s.status = .running ∧ r ≠ .status then none else some (regValue w r s)

/-- A host write (R17): CTRL bit 0 is the start command; DIM and STREAM_LEN are writable while not RUNNING; the other
registers are read-only. -/
def hostWrite (w : Config.Widths) (r : Reg) (v : Word32) (s : State) : State :=
  match r with
  | .ctrl => if v.getLsbD 0 then startCommand s else s
  | .dim => if s.status = .running then s else { s with dimReg := v.extractLsb' 0 16 }
  | .streamLen =>
    if s.status = .running then s else { s with streamLenReg := BitVec.ofNat 32 (v.toNat % 2 ^ w.posW) }
  | .status => s
  | .pos => s
  | .unitPos => s
  | .curRow => s
  | .curCol => s

/-- A host read by offset. -/
def hostReadAt (w : Config.Widths) (off : Nat) (s : State) : Option Word32 :=
  match Reg.atOffset off with
  | some r => hostRead w r s
  | none => none

/-- A host write by offset; an offset that is not the block's does not reach it (log entry 12). -/
def hostWriteAt (w : Config.Widths) (off : Nat) (v : Word32) (s : State) : State :=
  match Reg.atOffset off with
  | some r => hostWrite w r v s
  | none => s

/-- Loading stream bytes from address a on; no such move while RUNNING (R150, U17). -/
def hostLoadStream (a : Nat) (bytes : List Byte) (s : State) : Option State :=
  if s.status = .running then none else some { s with stream := s.stream.writeList a bytes }

/-- Loading one palette entry; no such move while RUNNING (R150, U17). -/
def hostLoadPalette (i : Byte) (c : Color) (s : State) : Option State :=
  if s.status = .running then none else some { s with palette := s.palette.write i.toNat c }

/-- The pixel of a cell as the planes hold it; `none` where they hold no value or the cell does not exist. -/
def cellPixel (row col : Nat) (s : State) : Option Pixel :=
  if row < s.dim.toNat ∧ col < s.dim.toNat then
    match s.rgb.read (linearAddr s.dim row col), s.alpha.read (linearAddr s.dim row col),
      s.index.read (linearAddr s.dim row col) with
    | some c, some a, some i => some ⟨c, a, i⟩
    | _, _, _ => none
  else none

/-- The host reads a plane cell: only after a halt (R43, R151). -/
def hostReadCell (row col : Nat) (s : State) : Option Pixel :=
  if s.status.isHalt then cellPixel row col s else none

end Sys2Proof.Machine
end

