-- ==== Sys2Proof/Machine/Loader.lean ====
section
/-! DEFINITION. The loader's conduct before a start (70_reset_and_hazards.md R142 to R145; 60_exceptions.md R121).
The loader is outside the block (R4 (e)); it is modelled because the block's launch premises rest on it. -/

namespace Sys2Proof.Machine

open Sys2Proof

/-- What the loader parses out of a file (R142). -/
structure Image where
  dim : Word16
  palette : List Color
  stream : List Byte
  deriving DecidableEq, Repr

/-- A byte of the file; 0 past its end, where no parse of a long enough file looks. -/
def fileByte (file : List Byte) (a : Nat) : Byte := file.getD a 0#8

/-- `dim`, little-endian (R143). -/
def parseDim (l : Config.HeaderLayout) (file : List Byte) : Word16 :=
  fileByte file (l.dimOffset + 1) ++ fileByte file l.dimOffset

/-- Palette entry i, stored blue, green, red, alpha (R144). -/
def parseEntry (l : Config.HeaderLayout) (file : List Byte) (i : Nat) : Color where
  b := fileByte file (l.palOffset + 4 * i)
  g := fileByte file (l.palOffset + 4 * i + 1)
  r := fileByte file (l.palOffset + 4 * i + 2)
  a := fileByte file (l.palOffset + 4 * i + 3)

/-- The file offset of STREAM address 0 (R39, R145). -/
def streamOffset (l : Config.HeaderLayout) : Nat := l.palOffset + 4 * Config.palEntries

/-- Parse a file (R142 to R145); `none` is TruncatedHeader (R121). -/
def parseFile (l : Config.HeaderLayout) (file : List Byte) : Option Image :=
  if file.length < streamOffset l ∨ file.length < l.dimOffset + 2 then none
  else some
    { dim := parseDim l file
      palette := (List.range Config.palEntries).map (parseEntry l file)
      stream := file.drop (streamOffset l) }

/-- What loading a file comes to. -/
inductive LoadResult where
  /-- DIM, STREAM_LEN, palette and stream are loaded; the start command may follow. -/
  | loaded (s : State)
  /-- TruncatedHeader, code 4: the block is not started (R121). -/
  | truncatedHeader
  /-- Outside the host's contract: the file's dim is 0, which the loader must not let through (R143), a session is
  RUNNING (R150), or the stream is too long for POS_W (U21). No state results. Log entry 23. -/
  | outsideContract
  deriving DecidableEq, Repr

/-- Steps 1 to 5 of R142, with `dim >= 1` ensured (R143); step 6 is the model's by construction and step 7 is
`startCommand`. -/
def loadFile (w : Config.Widths) (l : Config.HeaderLayout) (file : List Byte) (s : State) : LoadResult :=
  match parseFile l file with
  | none => .truncatedHeader
  | some im =>
    if im.dim = 0#16 ∨ s.status = .running ∨ 2 ^ w.posW ≤ im.stream.length then .outsideContract
    else .loaded { s with
      dimReg := im.dim
      streamLenReg := BitVec.ofNat 32 im.stream.length
      palette := s.palette.writeList 0 im.palette
      stream := s.stream.writeList 0 im.stream }

/-- The status code a loader reports an outcome by in the block's code space (R121). -/
def LoadResult.code : LoadResult → Option Status
  | .loaded _ => none
  | .truncatedHeader => some .errTruncatedHeader
  | .outsideContract => none

end Sys2Proof.Machine
end

