-- ==== Sys2Proof/Machine/Micro.lean ====
section
/-! DEFINITION. The finer-grained state machine of 42_sequencer.md R97, one byte or one pixel per micro-step, over
the registers phase, rem, idx_latch and dx_latch of 10_state.md R24. -/

namespace Sys2Proof.Machine

open Sys2Proof

/-- The end of the FETCH_B1 row: what the recognised unit sets up (R97). -/
def microDispatch (i : Instr) (s : State) : State :=
  match i with
  | .esc0 => halt .errInvalidEscape s
  | .endMarker => halt .endMarker s
  | .delta => { s with phase := .fetchDx }
  | .abs n => { s with rem := n - 2#8, phase := .absFetch }
  | .enc count idx => { s with rem := count, idxLatch := idx, phase := .encPaint }

/-- After a paint of a run: one pixel fewer, and on to `again` or to the next unit (R97). -/
def microAfterPaint (again : Phase) (s : State) : State :=
  { s with rem := s.rem - 1#8, phase := if 0 < (s.rem - 1#8).toNat then again else .fetchB0 }

/-- One row of the table of R97 for a running block. -/
def microRow (s : State) : Flow Unit :=
  match s.phase with
  | .fetchB0 =>
    if s.len ≤ s.pos then .stop (halt .streamExhausted s)
    else (nextByte { s with unitPos := s.pos }).andThen fun b0 s1 => .go () { s1 with phase := .fetchB1 b0 }
  | .fetchB1 b0 => (nextByte s).andThen fun b1 s1 => .go () (microDispatch (decode b0 b1) s1)
  | .fetchDx => (nextByte s).andThen fun dX s1 => .go () { s1 with dxLatch := dX, phase := .fetchDy }
  | .fetchDy => (nextByte s).andThen fun dY s1 => .go () { jump s1.dxLatch dY s1 with phase := .fetchB0 }
  | .absFetch => (nextByte s).andThen fun lit s1 => .go () { s1 with idxLatch := lit, phase := .absPaint }
  | .absPaint => (paint s.idxLatch s).andThen fun _ s1 => .go () (microAfterPaint .absFetch s1)
  | .encPaint => (paint s.idxLatch s).andThen fun _ s1 => .go () (microAfterPaint .encPaint s1)
  | .halted => .go () s

/-- One micro-step (R97); outside RUNNING there is none. -/
def microStep (s : State) : Host.Outcome State Fault Refusal :=
  if s.status = .running then (microRow s).outcome else .next s

/-- A unit boundary or the halt (R24, R98). -/
def atBoundary (s : State) : Bool := decide (s.phase = .fetchB0 ∨ s.phase = .halted)

/-- Micro-steps until the next unit boundary or HALTED, at least one, at most the given number. -/
def microRun : Nat → State → Host.Outcome State Fault Refusal
  | 0, s => .next s
  | n + 1, s =>
    match microStep s with
    | .next s1 => if atBoundary s1 then .next s1 else microRun n s1
    | .fault f => .fault f
    | .refused r => .refused r

/-- One unit in micro-steps: an ABS of 253 literals takes the most, 2 + 2 * 253 = 508. -/
def microUnit (s : State) : Host.Outcome State Fault Refusal := microRun 508 s

/-- The registers that are dead at a unit boundary and never seen by the host (R24), put at 0. -/
def forgetLatches (s : State) : State := { s with rem := 0#8, idxLatch := 0#8, dxLatch := 0#8 }

end Sys2Proof.Machine
end

