-- ==== Sys2Proof/Safety.lean ====
section
/-! DEFINITION. The words claims are stated in: launch premises (70_reset_and_hazards.md R149), the invariant of the
machine (10_state.md R13, R16, R24, R28), when a run fits, and when stream bytes are there. -/

namespace Sys2Proof.Machine

open Sys2Proof

/-- The five memories are in canonical form. -/
abbrev memoriesWf (s : State) : Prop :=
  s.stream.wf ∧ s.palette.wf ∧ s.rgb.wf ∧ s.alpha.wf ∧ s.index.wf

/-- No plane lists a cell outside the dim x dim buffer (R83). -/
abbrev planesBounded (s : State) : Prop :=
  (∀ c ∈ s.rgb.cells, c.1 < s.dim.toNat * s.dim.toNat) ∧
  (∀ c ∈ s.alpha.cells, c.1 < s.dim.toNat * s.dim.toNat) ∧
  (∀ c ∈ s.index.cells, c.1 < s.dim.toNat * s.dim.toNat)

/-- R13 and R28 (a): once a session has started, the column is inside the image. -/
abbrev cursorInDim (s : State) : Prop := s.status ≠ .idle → s.col.toNat < s.dim.toNat

/-- R16, R24: code 4 is never in the block's status; the phase is FETCH_B0 at a boundary and HALTED after a halt. -/
abbrev statusLegal (s : State) : Prop :=
  s.status ≠ .errTruncatedHeader ∧
  (s.status.isHalt = true → s.phase = .halted) ∧ (s.status.isHalt = false → s.phase = .fetchB0)

/-- R14, R15, R28 (c), (d). -/
abbrev positionsLegal (s : State) : Prop :=
  s.unitPos ≤ s.pos ∧ s.pos ≤ s.len ∧ (s.status = .streamExhausted → s.pos = s.len)

/-- The invariant every step and every move of the host keeps. -/
abbrev Inv (s : State) : Prop :=
  memoriesWf s ∧ planesBounded s ∧ cursorInDim s ∧ statusLegal s ∧ positionsLegal s

/-- R28 (f): the RGB and alpha planes are the image of the index plane under the palette. -/
def planesMatchPalette (s : State) : Prop :=
  ∀ a, s.rgb.read a = (s.index.read a).map (fun i => (paletteEntry s i).rgb) ∧
    s.alpha.read a = (s.index.read a).map (fun i => (paletteEntry s i).a)

/-- The next stream bytes, from the read position on, are these, and the stream is that long. -/
abbrev bytesReady (s : State) (bytes : List Byte) : Prop :=
  s.pos + bytes.length ≤ s.len ∧ s.stream.holds s.pos bytes = true

/-- Every stream byte below len was loaded: the part of StreamLoaded (R149) the block can meet. -/
def streamLoaded (s : State) : Prop := ∀ a, a < s.len → (s.stream.read a).isSome = true

/-- A run of n pixels from the cursor stays inside the buffer (R100). -/
abbrev runFits (s : State) (n : Nat) : Prop :=
  s.col.toNat < s.dim.toNat ∧ cursorAddr s + n ≤ s.dim.toNat * s.dim.toNat

/-- A run of n pixels from the cursor leaves the buffer: fewer than n cells are left (R82, R123). -/
abbrev runOverflows (s : State) (n : Nat) : Prop :=
  s.col.toNat < s.dim.toNat ∧ s.dim.toNat * s.dim.toNat < cursorAddr s + n

/-- How many pixels of a run the buffer still takes from the cursor on. -/
def cellsLeft (s : State) : Nat := s.dim.toNat * s.dim.toNat - cursorAddr s

/-- SpacesDisjoint (R149, R30): a pixel write reaches neither the stream nor the palette, and loading one of those
reaches no other space. -/
def spacesDisjoint (s : State) : Prop :=
  (∀ a p, (writePixel a p s).stream = s.stream ∧ (writePixel a p s).palette = s.palette) ∧
  (∀ a bytes t, hostLoadStream a bytes s = some t →
    t.palette = s.palette ∧ t.rgb = s.rgb ∧ t.alpha = s.alpha ∧ t.index = s.index) ∧
  (∀ i c t, hostLoadPalette i c s = some t →
    t.stream = s.stream ∧ t.rgb = s.rgb ∧ t.alpha = s.alpha ∧ t.index = s.index)

/-- PlanesAllocated (R149): a session started here has a pixel in each of the dim x dim cells. -/
def planesAllocated (s : State) : Prop :=
  ∀ r c, r < s.dimReg.toNat → c < s.dimReg.toNat → (cellPixel r c (startSession s)).isSome = true

/-- ConfigStable (R149, R23): over any number of steps of the session started here dim, len, palette and stream stay
what they were at the start. -/
def configStable (s : State) : Prop :=
  ∀ k t, Host.Core.run Sys2Proof.core k (startSession s) = .next t →
    t.dim = s.dimReg ∧ t.len = s.streamLenReg.toNat ∧ t.palette = s.palette ∧ t.stream = s.stream

/-- The seven launch premises of R149. -/
structure LaunchPremises (w : Config.Widths) (s : State) : Prop where
  dimPositive : 1 ≤ s.dimReg.toNat
  paletteLoaded : ∀ i : Byte, (s.palette.read i.toNat).isSome = true
  streamLoaded :
    (∀ a, a < s.streamLenReg.toNat → (s.stream.read a).isSome = true) ∧ s.streamLenReg.toNat < 2 ^ w.posW
  planesAllocated : planesAllocated s
  spacesDisjoint : spacesDisjoint s
  configStable : configStable s
  notRunning : s.status ≠ .running

/-- The three planes taken from another state: for claims that no rule's outcome depends on a cell's content (R19). -/
def withPlanesOf (p s : State) : State := { s with rgb := p.rgb, alpha := p.alpha, index := p.index }

/-- A safe state: no cell outside the buffer was ever written and the status is one the block can show. -/
abbrev Safe (s : State) : Prop := planesBounded s ∧ s.status ≠ .errTruncatedHeader

end Sys2Proof.Machine
end

