-- ==== Sys2Proof/Certificates/Slice0/Obligations.lean ====
section
/-! DEFINITION. The statements put to the provers, from the numbered rules of spec/. -/

open Sys2Proof Sys2Proof.Machine

/-! ### Encoding (30_encoding.md) -/

/-- R50, R59: decoding the bytes of any well-formed unit, with any operand bytes of the right number and anything
after them, gives back that unit, those operands and that rest. -/
def Obligations.UnitRoundTrip : Prop :=
  ∀ (i : Instr) (operands rest : List Byte), i.wellFormed = true → operands.length = i.operandCount →
    decodeUnit (encodeUnit i operands ++ rest) = .whole i operands rest

/-- R52, R55: every header decodes to a well-formed unit that is spelt by that header alone, and a whole unit's
bytes are exactly its encoding. -/
def Obligations.DecodedUnitSpellsItsBytes : Prop :=
  (∀ b0 b1 : Byte, (decode b0 b1).wellFormed = true ∧ encode (decode b0 b1) = (b0, b1)) ∧
  ∀ (bytes operands rest : List Byte) (i : Instr), decodeUnit bytes = .whole i operands rest →
    i.wellFormed = true ∧ operands.length = i.operandCount ∧ bytes = encodeUnit i operands ++ rest

/-- R52: the dispatch on the two header bytes. -/
def Obligations.DispatchOnHeader : Prop :=
  ∀ b0 b1 : Byte,
    (b0.toNat ≠ 0 → decode b0 b1 = .enc b0 b1) ∧
    (b0.toNat = 0 → b1.toNat = 0 → decode b0 b1 = .esc0) ∧
    (b0.toNat = 0 → b1.toNat = 1 → decode b0 b1 = .endMarker) ∧
    (b0.toNat = 0 → b1.toNat = 2 → decode b0 b1 = .delta) ∧
    (b0.toNat = 0 → 3 ≤ b1.toNat → decode b0 b1 = .abs b1 ∧ (Instr.abs b1).operandCount = b1.toNat - 2)

/-- R51, R55: read as a first-match list of masks the opcode table gives the decoder's unit, and of the exact
constraints exactly one holds of every header. -/
def Obligations.OpcodeTableAgrees : Prop :=
  ∀ b0 b1 : Byte,
    firstMatch (headerWord b0 b1) = some (decode b0 b1).kind ∧
    ∀ k : UnitKind, rowConstraint k b0 b1 = true ↔ k = (decode b0 b1).kind

/-- R58: the unit length by header, and a unit is whole exactly when that many bytes are there. -/
def Obligations.UnitLengthFromHeader : Prop :=
  ∀ (b0 b1 : Byte) (bs : List Byte),
    (decode b0 b1).unitLength =
      (if b0.toNat ≠ 0 then 2 else if b1.toNat ≤ 1 then 2 else if b1.toNat = 2 then 4 else b1.toNat) ∧
    ((decode b0 b1).unitLength ≤ (b0 :: b1 :: bs).length →
      ∃ operands rest, decodeUnit (b0 :: b1 :: bs) = .whole (decode b0 b1) operands rest ∧
        2 + operands.length = (decode b0 b1).unitLength ∧ bs = operands ++ rest) ∧
    ((b0 :: b1 :: bs).length < (decode b0 b1).unitLength →
      decodeUnit (b0 :: b1 :: bs) = .cut (decode b0 b1) bs)

/-- R60: what each assembly line emits decodes to its unit with its operands; the two lines an assembler must refuse
are refused. -/
def Obligations.AssembledLinesDecode : Prop :=
  (∀ idx : Byte, assemble (.enc 0#8 idx) = none) ∧ assemble (.abs []) = none ∧
  (∀ count idx : Byte, count ≠ 0#8 →
    (assemble (.enc count idx)).map decodeUnit = some (.whole (.enc count idx) [] [])) ∧
  (∀ lits : List Byte, 1 ≤ lits.length → lits.length ≤ 253 →
    (assemble (.abs lits)).map decodeUnit = some (.whole (.abs (BitVec.ofNat 8 (lits.length + 2))) lits [])) ∧
  (∀ dX dY : Byte, (assemble (.delta dX dY)).map decodeUnit = some (.whole .delta [dX, dY] [])) ∧
  (assemble .endMarker).map decodeUnit = some (.whole .endMarker [] []) ∧
  (assemble .esc0).map decodeUnit = some (.whole .esc0 [] [])

/-- 95_test_vectors.md 2.8: headers at the edges of every class, written out byte by byte. -/
def Obligations.SpecHeadersDecode : Prop :=
  decode 0x00#8 0x00#8 = .esc0 ∧ decode 0x00#8 0x01#8 = .endMarker ∧ decode 0x00#8 0x02#8 = .delta ∧
  decode 0x00#8 0x03#8 = .abs 3#8 ∧ decode 0x00#8 0xFF#8 = .abs 255#8 ∧ decode 0x01#8 0x00#8 = .enc 1#8 0#8 ∧
  decode 0x80#8 0x80#8 = .enc 128#8 128#8 ∧ decode 0xFF#8 0xFF#8 = .enc 255#8 255#8 ∧
  (decode 0x00#8 0x03#8).unitLength = 3 ∧ (decode 0x00#8 0x80#8).unitLength = 128 ∧ (decode 0x00#8 0xFF#8).unitLength = 255

/-! ### The sequencer (42_sequencer.md) -/

/-- R91: a running block whose next two bytes are a header executes the unit that header decodes to, after latching
unit_pos and consuming the two bytes. -/
def Obligations.StepRunsDecodedUnit : Prop :=
  ∀ (s : State) (i : Instr), s.status = .running → i.wellFormed = true →
    bytesReady s [(encode i).1, (encode i).2] →
    step s = exec i { s with unitPos := s.pos, pos := s.pos + 2 }

/-- R91, R93, R95 (a) and (b): at a unit boundary with no byte left the session halts and unit_pos is unchanged; with
one byte left that byte is consumed and the session halts, whatever the byte is. -/
def Obligations.StepAtEndOfStream : Prop :=
  (∀ s : State, s.status = .running → s.len ≤ s.pos →
    step s = .next { s with status := .streamExhausted, phase := .halted }) ∧
  (∀ (s : State) (b0 : Byte), s.status = .running → s.pos + 1 = s.len → bytesReady s [b0] →
    step s = .next { s with pos := s.len, unitPos := s.len - 1, status := .streamExhausted, phase := .halted })

/-- R90, with the model's reading of 'has no step' as 'the same state' (log entry 2): outside RUNNING nothing
changes, and a step of a running block always changes something. -/
def Obligations.StepExactlyWhileRunning : Prop :=
  (∀ s : State, s.status ≠ .running → step s = .next s) ∧
  (∀ s t : State, s.status = .running → step s = .next t → t ≠ s)

/-- R92: `next_byte()`. -/
def Obligations.NextByteConsumesOne : Prop :=
  (∀ s : State, s.len ≤ s.pos → nextByte s = .stop { s with status := .streamExhausted, phase := .halted }) ∧
  (∀ (s : State) (v : Byte), bytesReady s [v] → nextByte s = .go v { s with pos := s.pos + 1 })

/-- R99, R58: a unit after which the session is still running has consumed exactly its own length, and unit_pos
names it; the next unit begins at the byte after it. -/
def Obligations.ControlIsStraightLine : Prop :=
  ∀ (s t : State) (b0 b1 : Byte), s.status = .running → bytesReady s [b0, b1] → step s = .next t →
    t.status = .running → t.unitPos = s.pos ∧ t.pos = s.pos + (decode b0 b1).unitLength

/-! ### Cursor and address generator (40_cursor_ops.md) -/

/-- R71: `advance()`, for every cursor inside its row. -/
def Obligations.AdvanceWrapsAtDim : Prop :=
  ∀ s : State, s.col.toNat < s.dim.toNat →
    (s.col.toNat + 1 = s.dim.toNat → advance s = { s with col := 0#16, row := s.row + 1 }) ∧
    (s.col.toNat + 1 ≠ s.dim.toNat →
      advance s = { s with col := (advance s).col } ∧ (advance s).col.toNat = s.col.toNat + 1)

/-- R72: `jump(dX, dY)`: row gets dY always, the column is the exact sum or is clamped to 0, nothing else changes. -/
def Obligations.JumpAddsThenClamps : Prop :=
  ∀ (dX dY : Byte) (s : State),
    (s.dim.toNat ≤ s.col.toNat + dX.toNat → jump dX dY s = { s with row := s.row + dY.toNat, col := 0#16 }) ∧
    (s.col.toNat + dX.toNat < s.dim.toNat →
      jump dX dY s = { s with row := s.row + dY.toNat, col := (jump dX dY s).col } ∧
      (jump dX dY s).col.toNat = s.col.toNat + dX.toNat)

/-- R74: validity and linear address of the cursor; the comparison is exact with a saturating row as well. The last
clause (different cells have different addresses) is a consequence. -/
def Obligations.AddressGeneratorExact : Prop :=
  ∀ s : State,
    (cursorValid s = true ↔ s.row < s.dim.toNat ∧ s.col.toNat < s.dim.toNat) ∧
    cursorAddr s = s.row * s.dim.toNat + s.col.toNat ∧
    (s.col.toNat < s.dim.toNat → (cursorValid s = true ↔ s.row < s.dim.toNat)) ∧
    (cursorValid s = true → cursorAddr s < s.dim.toNat * s.dim.toNat ∧ cursorAddr s < 2 ^ 32) ∧
    (∀ rowW, 16 ≤ rowW → cursorValid (saturateRow rowW s) = cursorValid s) ∧
    (∀ t : State, t.dim = s.dim → cursorValid s = true → cursorValid t = true → cursorAddr s = cursorAddr t →
      s.row = t.row ∧ s.col = t.col)

/-! ### Paint and pre-fill (41_pixel_write.md) -/

/-- R82, R81: a paint inside the buffer writes the resolved pixel at the cursor from before the advance and nothing
else, then advances; outside the buffer it writes nothing and halts with ERR_ROW_OVERFLOW. -/
def Obligations.PaintChecksWritesAdvances : Prop :=
  ∀ (i : Byte) (s : State),
    (cursorValid s = true → ∃ t, paint i s = .go () t ∧
      (∀ a, t.rgb.read a = if a = cursorAddr s then some (paletteEntry s i).rgb else s.rgb.read a) ∧
      (∀ a, t.alpha.read a = if a = cursorAddr s then some (paletteEntry s i).a else s.alpha.read a) ∧
      (∀ a, t.index.read a = if a = cursorAddr s then some i else s.index.read a) ∧
      t = { advance s with rgb := t.rgb, alpha := t.alpha, index := t.index }) ∧
    (cursorValid s = false → paint i s = .stop { s with status := .errRowOverflow, phase := .halted })

/-- R80, R18: an entry the loader placed is what a paint of its index resolves to, for every one of the 256 indices. -/
def Obligations.LoadedEntryResolves : Prop :=
  ∀ (i : Byte) (c : Color) (s t : State), hostLoadPalette i c s = some t →
    resolve t i = ⟨⟨c.r, c.g, c.b⟩, c.a, i⟩ ∧
    ∀ j : Byte, j ≠ i → resolve t j = resolve s j

/-- R84: the pre-fill gives every cell palette entry 0 and index 0 and touches nothing else. -/
def Obligations.PrefillGivesBackground : Prop :=
  ∀ s : State,
    (∀ r c, r < s.dim.toNat → c < s.dim.toNat →
      cellPixel r c (prefill s) = some ⟨(paletteEntry s 0#8).rgb, (paletteEntry s 0#8).a, 0#8⟩) ∧
    prefill s = { s with rgb := (prefill s).rgb, alpha := (prefill s).alpha, index := (prefill s).index }

/-! ### ENC (43_paint_units.md) -/

/-- R101, R100: a run that fits paints exactly `count` cells of row-major addresses from the cursor on and leaves the
cursor after them; a run that does not fit paints the cells that are left, then halts with ERR_ROW_OVERFLOW at the
failing cursor. In both cases pos and everything else stand. -/
def Obligations.EncPaintsRun : Prop :=
  (∀ (count idx : Byte) (s : State), runFits s count.toNat → ∃ t, exec (.enc count idx) s = .next t ∧
    (∀ a, t.index.read a =
      if cursorAddr s ≤ a ∧ a < cursorAddr s + count.toNat then some idx else s.index.read a) ∧
    (∀ a, t.rgb.read a =
      if cursorAddr s ≤ a ∧ a < cursorAddr s + count.toNat then some (paletteEntry s idx).rgb else s.rgb.read a) ∧
    (∀ a, t.alpha.read a =
      if cursorAddr s ≤ a ∧ a < cursorAddr s + count.toNat then some (paletteEntry s idx).a else s.alpha.read a) ∧
    t.row = (cursorAddr s + count.toNat) / s.dim.toNat ∧
    t.col.toNat = (cursorAddr s + count.toNat) % s.dim.toNat ∧
    t = { s with row := t.row, col := t.col, rgb := t.rgb, alpha := t.alpha, index := t.index }) ∧
  (∀ (count idx : Byte) (s : State), 1 ≤ count.toNat → runOverflows s count.toNat →
    ∃ t, exec (.enc count idx) s = .next t ∧
    (∀ a, t.index.read a =
      if cursorAddr s ≤ a ∧ a < s.dim.toNat * s.dim.toNat then some idx else s.index.read a) ∧
    (∀ a, t.rgb.read a =
      if cursorAddr s ≤ a ∧ a < s.dim.toNat * s.dim.toNat then some (paletteEntry s idx).rgb else s.rgb.read a) ∧
    (∀ a, t.alpha.read a =
      if cursorAddr s ≤ a ∧ a < s.dim.toNat * s.dim.toNat then some (paletteEntry s idx).a else s.alpha.read a) ∧
    t.row = (if s.row < s.dim.toNat then s.dim.toNat else s.row) ∧
    t.col = (if s.row < s.dim.toNat then 0#16 else s.col) ∧
    t = { s with
      row := t.row, col := t.col, rgb := t.rgb, alpha := t.alpha, index := t.index,
      status := .errRowOverflow, phase := .halted })

/-- The frame of ENC, for every state and every form: only the cursor, the planes and, on the error, status and
phase change, and no cell outside the run's addresses changes. -/
def Obligations.EncFrame : Prop :=
  ∀ (count idx : Byte) (s t : State), exec (.enc count idx) s = .next t →
    t = { s with
      row := t.row, col := t.col, rgb := t.rgb, alpha := t.alpha, index := t.index,
      status := t.status, phase := t.phase } ∧
    (t.status = s.status ∧ t.phase = s.phase ∨ t.status = .errRowOverflow ∧ t.phase = .halted) ∧
    ∀ a, a < cursorAddr s ∨ cursorAddr s + count.toNat ≤ a →
      t.rgb.read a = s.rgb.read a ∧ t.alpha.read a = s.alpha.read a ∧ t.index.read a = s.index.read a

/-! ### ABS (43_paint_units.md) -/

/-- R102: with all n - 2 literals there and room for them, each literal paints one cell in order. With the literals up
to and including the first that finds no cell, the ones before it are painted and the session halts with
ERR_ROW_OVERFLOW, that literal consumed. With the stream ending after fewer than n - 2 literals, those there are
painted and the session halts with STREAM_EXHAUSTED, whatever the cursor when the missing one was due. -/
def Obligations.AbsPaintsLiterals : Prop :=
  (∀ (n : Byte) (lits : List Byte) (s : State), lits.length = n.toNat - 2 → bytesReady s lits →
    runFits s lits.length → ∃ t, exec (.abs n) s = .next t ∧
    (∀ a, t.index.read a =
      if cursorAddr s ≤ a ∧ a < cursorAddr s + lits.length then lits[a - cursorAddr s]? else s.index.read a) ∧
    (∀ a, t.rgb.read a =
      if cursorAddr s ≤ a ∧ a < cursorAddr s + lits.length then
        (lits[a - cursorAddr s]?).map (fun i => (paletteEntry s i).rgb) else s.rgb.read a) ∧
    (∀ a, t.alpha.read a =
      if cursorAddr s ≤ a ∧ a < cursorAddr s + lits.length then
        (lits[a - cursorAddr s]?).map (fun i => (paletteEntry s i).a) else s.alpha.read a) ∧
    t.row = (cursorAddr s + lits.length) / s.dim.toNat ∧
    t.col.toNat = (cursorAddr s + lits.length) % s.dim.toNat ∧
    t = { s with
      pos := s.pos + lits.length, row := t.row, col := t.col,
      rgb := t.rgb, alpha := t.alpha, index := t.index }) ∧
  (∀ (n : Byte) (lits : List Byte) (s : State), lits.length ≤ n.toNat - 2 → bytesReady s lits →
    s.col.toNat < s.dim.toNat → lits.length = cellsLeft s + 1 → ∃ t, exec (.abs n) s = .next t ∧
    (∀ a, t.index.read a =
      if cursorAddr s ≤ a ∧ a < cursorAddr s + cellsLeft s then lits[a - cursorAddr s]? else s.index.read a) ∧
    (∀ a, t.rgb.read a =
      if cursorAddr s ≤ a ∧ a < cursorAddr s + cellsLeft s then
        (lits[a - cursorAddr s]?).map (fun i => (paletteEntry s i).rgb) else s.rgb.read a) ∧
    (∀ a, t.alpha.read a =
      if cursorAddr s ≤ a ∧ a < cursorAddr s + cellsLeft s then
        (lits[a - cursorAddr s]?).map (fun i => (paletteEntry s i).a) else s.alpha.read a) ∧
    t.row = (if s.row < s.dim.toNat then s.dim.toNat else s.row) ∧
    t.col = (if s.row < s.dim.toNat then 0#16 else s.col) ∧
    t = { s with
      pos := s.pos + lits.length, row := t.row, col := t.col,
      rgb := t.rgb, alpha := t.alpha, index := t.index, status := .errRowOverflow, phase := .halted }) ∧
  (∀ (n : Byte) (lits : List Byte) (s : State), lits.length < n.toNat - 2 → bytesReady s lits →
    s.pos + lits.length = s.len → (lits = [] ∨ runFits s lits.length) → ∃ t, exec (.abs n) s = .next t ∧
    (∀ a, t.index.read a =
      if cursorAddr s ≤ a ∧ a < cursorAddr s + lits.length then lits[a - cursorAddr s]? else s.index.read a) ∧
    (∀ a, t.rgb.read a =
      if cursorAddr s ≤ a ∧ a < cursorAddr s + lits.length then
        (lits[a - cursorAddr s]?).map (fun i => (paletteEntry s i).rgb) else s.rgb.read a) ∧
    (∀ a, t.alpha.read a =
      if cursorAddr s ≤ a ∧ a < cursorAddr s + lits.length then
        (lits[a - cursorAddr s]?).map (fun i => (paletteEntry s i).a) else s.alpha.read a) ∧
    t.row = (if lits = [] then s.row else (cursorAddr s + lits.length) / s.dim.toNat) ∧
    t.col.toNat = (if lits = [] then s.col.toNat else (cursorAddr s + lits.length) % s.dim.toNat) ∧
    t = { s with
      pos := s.len, row := t.row, col := t.col,
      rgb := t.rgb, alpha := t.alpha, index := t.index, status := .streamExhausted, phase := .halted })

/-- The frame of ABS, for every state and every form: only pos, the cursor, the planes and, on a halt, status and
phase change; no more than n - 2 bytes are consumed and no cell outside the run's addresses changes. -/
def Obligations.AbsFrame : Prop :=
  ∀ (n : Byte) (s t : State), exec (.abs n) s = .next t →
    t = { s with
      pos := t.pos, row := t.row, col := t.col, rgb := t.rgb, alpha := t.alpha, index := t.index,
      status := t.status, phase := t.phase } ∧
    (t.status = s.status ∧ t.phase = s.phase ∨
      (t.status = .errRowOverflow ∨ t.status = .streamExhausted) ∧ t.phase = .halted) ∧
    s.pos ≤ t.pos ∧ t.pos ≤ s.pos + (n.toNat - 2) ∧
    ∀ a, a < cursorAddr s ∨ cursorAddr s + (n.toNat - 2) ≤ a →
      t.rgb.read a = s.rgb.read a ∧ t.alpha.read a = s.alpha.read a ∧ t.index.read a = s.index.read a

/-! ### DELTA, END, ESC0 (44_escape_units.md) -/

/-- R112: with both operands there the cursor jumps (row + dY; the exact column sum, or 0 when it reaches dim) and
four bytes in all are consumed; with dX or dY missing there is no jump and the session halts with
STREAM_EXHAUSTED. -/
def Obligations.DeltaJumpsOrExhausts : Prop :=
  (∀ (dX dY : Byte) (s : State), bytesReady s [dX, dY] → ∃ t, exec .delta s = .next t ∧
    t.row = s.row + dY.toNat ∧
    t.col.toNat = (if s.dim.toNat ≤ s.col.toNat + dX.toNat then 0 else s.col.toNat + dX.toNat) ∧
    t = { s with pos := s.pos + 2, row := t.row, col := t.col }) ∧
  (∀ s : State, s.len ≤ s.pos →
    exec .delta s = .next { s with status := .streamExhausted, phase := .halted }) ∧
  (∀ (dX : Byte) (s : State), bytesReady s [dX] → s.pos + 1 = s.len →
    exec .delta s = .next { s with pos := s.len, status := .streamExhausted, phase := .halted })

/-- The frame of DELTA, for every state: no plane changes, and no register but pos, the cursor and, on the halt,
status and phase. -/
def Obligations.DeltaFrame : Prop :=
  ∀ s t : State, exec .delta s = .next t →
    t = { s with pos := t.pos, row := t.row, col := t.col, status := t.status, phase := t.phase } ∧
    (t.status = s.status ∧ t.phase = s.phase ∧ t.pos = s.pos + 2 ∨
      t.status = .streamExhausted ∧ t.phase = .halted ∧ t.row = s.row ∧ t.col = s.col) ∧
    ∀ a, t.rgb.read a = s.rgb.read a ∧ t.alpha.read a = s.alpha.read a ∧ t.index.read a = s.index.read a

/-- R57: `00 02 00 00` moves on by four bytes and changes nothing else (unit_pos, which names the unit, follows
R91). -/
def Obligations.DeltaZeroOnlyMovesOn : Prop :=
  ∀ s : State, s.status = .running → s.col.toNat < s.dim.toNat → bytesReady s [0x00#8, 0x02#8, 0x00#8, 0x00#8] →
    step s = .next { s with unitPos := s.pos, pos := s.pos + 4 }

/-- R111: END halts with END_MARKER whatever the cursor, its two bytes consumed, nothing else changed and nothing
after it looked at. -/
def Obligations.EndHaltsSuccessfully : Prop :=
  (∀ s : State, exec .endMarker s = .next { s with status := .endMarker, phase := .halted }) ∧
  (∀ s : State, s.status = .running → bytesReady s [0x00#8, 0x01#8] →
    step s = .next { s with
      unitPos := s.pos, pos := s.pos + 2, status := .endMarker, phase := .halted })

/-- R114: ESC0 raises InvalidEscape, its two bytes consumed, unit_pos naming it, nothing else changed. -/
def Obligations.EscZeroRaisesInvalidEscape : Prop :=
  (∀ s : State, exec .esc0 s = .next { s with status := .errInvalidEscape, phase := .halted }) ∧
  (∀ s : State, s.status = .running → bytesReady s [0x00#8, 0x00#8] →
    step s = .next { s with
      unitPos := s.pos, pos := s.pos + 2, status := .errInvalidEscape, phase := .halted })

/-! ### Outcomes (60_exceptions.md) -/

/-- R126: which unit can end in which outcome. -/
def Obligations.OutcomesPerUnit : Prop :=
  (∀ (count idx : Byte) (s t : State), exec (.enc count idx) s = .next t →
    t.status = s.status ∨ t.status = .errRowOverflow) ∧
  (∀ (n : Byte) (s t : State), exec (.abs n) s = .next t →
    t.status = s.status ∨ t.status = .errRowOverflow ∨ t.status = .streamExhausted) ∧
  (∀ s t : State, exec .delta s = .next t → t.status = s.status ∨ t.status = .streamExhausted) ∧
  (∀ s t : State, exec .endMarker s = .next t → t.status = .endMarker) ∧
  (∀ s t : State, exec .esc0 s = .next t → t.status = .errInvalidEscape)

/-- R94: a session ends in exactly one of four ways, and status tells which. -/
def Obligations.SessionEndsInOneOfFourWays : Prop :=
  ∀ s t : State, s.status = .running → step s = .next t →
    t.status = .running ∨
    (t.status = .endMarker ∧ bytesReady s [0x00#8, 0x01#8]) ∨
    (t.status = .streamExhausted ∧ t.len ≤ t.pos) ∨
    (t.status = .errInvalidEscape ∧ bytesReady s [0x00#8, 0x00#8]) ∨
    (t.status = .errRowOverflow ∧ cursorValid t = false)

/-- R96, R130, with log entry 2: a halted machine stays as it is however long it is left. -/
def Obligations.HaltIsTerminal : Prop :=
  ∀ (k : Nat) (s : State), s.status.isHalt = true → Host.Core.run Sys2Proof.core k s = .next s

/-- The model's one fault (log entry 5), for every byte a step can need: any fault of a step names an address from pos
on, below len, that nobody loaded, and no step is refused; and an unloaded byte below len does fault where it is due:
in `next_byte()`, as b0, as b1, as dX or dY, and as an ABS literal once the literals before it are painted. -/
def Obligations.UnloadedByteFaults : Prop :=
  (∀ (s : State) (f : Fault), step s = .fault f →
    ∃ a, f = .streamNotLoaded a ∧ s.status = .running ∧ s.pos ≤ a ∧ a < s.len ∧ s.stream.read a = none) ∧
  (∀ (s : State) (r : Refusal), step s ≠ .refused r) ∧
  (∀ s : State, s.pos < s.len → s.stream.read s.pos = none → nextByte s = .fault (.streamNotLoaded s.pos)) ∧
  (∀ s : State, s.status = .running → s.pos < s.len → s.stream.read s.pos = none →
    step s = .fault (.streamNotLoaded s.pos)) ∧
  (∀ (s : State) (b0 : Byte), s.status = .running → bytesReady s [b0] → s.pos + 1 < s.len →
    s.stream.read (s.pos + 1) = none → step s = .fault (.streamNotLoaded (s.pos + 1))) ∧
  (∀ s : State, s.pos < s.len → s.stream.read s.pos = none →
    exec .delta s = .fault (.streamNotLoaded s.pos)) ∧
  (∀ (s : State) (dX : Byte), bytesReady s [dX] → s.pos + 1 < s.len → s.stream.read (s.pos + 1) = none →
    exec .delta s = .fault (.streamNotLoaded (s.pos + 1))) ∧
  (∀ (n : Byte) (lits : List Byte) (s : State), lits.length < n.toNat - 2 → bytesReady s lits →
    s.pos + lits.length < s.len → s.stream.read (s.pos + lits.length) = none →
    (lits = [] ∨ runFits s lits.length) → exec (.abs n) s = .fault (.streamNotLoaded (s.pos + lits.length)))

/-- Under StreamLoaded (R149) every step of the machine answers a next state: no fault, no refusal. -/
def Obligations.LoadedStreamAlwaysSteps : Prop :=
  ∀ s : State, streamLoaded s → ∃ t, step s = .next t

/-! ### Invariants (10_state.md R28) -/

/-- R26: the reset state meets the invariant. -/
def Obligations.ResetMeetsInvariant : Prop := Inv State.reset

/-- R13, R16, R24, R28 (a), (c), (d), R83: every step keeps the invariant. -/
def Obligations.StepKeepsInvariant : Prop :=
  ∀ s t : State, Inv s → step s = .next t → Inv t

/-- Every move of the host keeps the invariant (R140, R146 to R150). -/
def Obligations.HostMovesKeepInvariant : Prop :=
  ∀ s : State, Inv s →
    Inv (startCommand s) ∧ Inv (hardwareReset s) ∧
    (∀ w r v, Inv (hostWrite w r v s)) ∧
    (∀ a bytes t, hostLoadStream a bytes s = some t → Inv t) ∧
    (∀ i c t, hostLoadPalette i c s = some t → Inv t) ∧
    (∀ w l file t, loadFile w l file s = .loaded t → Inv t)

/-- R28 (f): the RGB and alpha planes are the image of the index plane under the palette: true right after a start,
kept by every step. -/
def Obligations.PlanesStayImageOfPalette : Prop :=
  (∀ s : State, planesMatchPalette (startSession s)) ∧
  (∀ s t : State, planesMatchPalette s → step s = .next t → planesMatchPalette t)

/-- R28 (b), (c): row and pos never decrease, and pos never passes len. -/
def Obligations.RowAndPosNeverDecrease : Prop :=
  ∀ s t : State, step s = .next t →
    s.row ≤ t.row ∧ s.pos ≤ t.pos ∧ (s.pos ≤ s.len → t.pos ≤ t.len)

/-- R28 (h): every session halts: from a running state with its stream loaded, after half the bytes left and one step
more the status is a halt code. -/
def Obligations.EverySessionHalts : Prop :=
  ∀ (s : State) (k : Nat), s.status = .running → streamLoaded s → (s.len - s.pos) / 2 + 1 ≤ k →
    ∃ t, Host.Core.run Sys2Proof.core k s = .next t ∧ t.status.isHalt = true

/-- R10, R23, R24, R44: a step changes no configuration, no host register and none of the stream and palette
memories, nor the latches of the micro-step machine. -/
def Obligations.StepKeepsConfiguration : Prop :=
  ∀ s t : State, step s = .next t →
    t = { s with
      row := t.row, col := t.col, pos := t.pos, unitPos := t.unitPos, status := t.status, phase := t.phase,
      rgb := t.rgb, alpha := t.alpha, index := t.index }

/-- R83, R28 (g): no step changes what the planes hold outside the dim x dim buffer, and outside RUNNING no step
changes them at all. -/
def Obligations.NoWriteOutsideBuffer : Prop :=
  ∀ s t : State, step s = .next t →
    (∀ a, s.dim.toNat * s.dim.toNat ≤ a →
      t.rgb.read a = s.rgb.read a ∧ t.alpha.read a = s.alpha.read a ∧ t.index.read a = s.index.read a) ∧
    (s.status ≠ .running → t.rgb = s.rgb ∧ t.alpha = s.alpha ∧ t.index = s.index)

/-- The canonical form is canonical, whatever a cell holds: two memories in it that read alike everywhere are the same
data (log entry 4). -/
def Obligations.EqualReadsEqualMemories : Prop :=
  ∀ (α : Type) [DecidableEq α] (m n : Memory α), m.wf → n.wf → (∀ a, m.read a = n.read a) → m = n

/-! ### Refinements and independence -/

/-- R98: from a unit boundary, micro-steps until the next boundary or HALTED give the state of one unit step, but for
the three registers that are dead there (R24). -/
def Obligations.MicroStepsMakeUnitStep : Prop :=
  ∀ s : State, s.status = .running → s.phase = .fetchB0 →
    mapNext forgetLatches (microUnit s) = mapNext forgetLatches (step s)

/-- R12: a machine whose row register has rowW >= 16 bits and saturates goes through the same states as the unbounded
one but for the saturated row, over any number of steps. -/
def Obligations.SaturatingRowIsExact : Prop :=
  ∀ (rowW k : Nat) (s : State), 16 ≤ rowW →
    runWith (finiteStep rowW) k (saturateRow rowW s) = mapNext (saturateRow rowW) (runWith step k s)

/-- R19: the block never reads the planes: what they hold changes nothing but what they hold afterwards. -/
def Obligations.PlanesInfluenceNothing : Prop :=
  ∀ s p : State,
    (∀ t, step s = .next t → ∃ q, step (withPlanesOf p s) = .next (withPlanesOf q t)) ∧
    (∀ f, step s = .fault f → step (withPlanesOf p s) = .fault f)

/-- R96, R111: stream bytes outside those a step consumed were never read: with any other bytes there the step is the
same. -/
def Obligations.UnconsumedBytesUnread : Prop :=
  ∀ (s t : State) (m : Memory Byte), step s = .next t →
    (∀ a, s.pos ≤ a → a < t.pos → m.read a = s.stream.read a) →
    step { s with stream := m } = .next { t with stream := m }

/-! ### Life cycle and host interface (10_state.md R17, R26, R27; 70_reset_and_hazards.md) -/

/-- R26: the values after hardware reset; no plane cell holds a value. -/
def Obligations.ResetValues : Prop :=
  State.reset.status = .idle ∧ State.reset.pos = 0 ∧ State.reset.unitPos = 0 ∧ State.reset.row = 0 ∧
  State.reset.col = 0#16 ∧ State.reset.dimReg = 0#16 ∧ State.reset.streamLenReg = 0#32 ∧ State.reset.phase = .fetchB0 ∧
  State.reset.rem = 0#8 ∧ State.reset.idxLatch = 0#8 ∧ State.reset.dxLatch = 0#8 ∧
  (∀ a, State.reset.rgb.read a = none ∧ State.reset.alpha.read a = none ∧ State.reset.index.read a = none) ∧
  step State.reset = .next State.reset

/-- R140, with log entries 6 and 7: the reset input, in any state, gives the reset state but for the model's own count
of resets. -/
def Obligations.HardwareResetFromAnyState : Prop :=
  ∀ s : State, hardwareReset s = { State.reset with paletteEpoch := s.paletteEpoch + 1 }

/-- R146, R27: an accepted start command: the values of the start state, the configuration latched, every cell of every
plane background, the memories and host registers as they were. -/
def Obligations.StartCommandBeginsSession : Prop :=
  ∀ (w : Config.Widths) (v : Word32) (s : State), s.status ≠ .running → 1 ≤ s.dimReg.toNat →
    v.getLsbD 0 = true →
    ∃ t, hostWrite w .ctrl v s = t ∧
      (∀ r c, r < s.dimReg.toNat → c < s.dimReg.toNat →
        cellPixel r c t = some ⟨(paletteEntry s 0#8).rgb, (paletteEntry s 0#8).a, 0#8⟩) ∧
      t = { s with
        status := .running, pos := 0, unitPos := 0, row := 0, col := 0#16, phase := .fetchB0, rem := 0#8,
        dim := s.dimReg, len := s.streamLenReg.toNat, rgb := t.rgb, alpha := t.alpha, index := t.index }

/-- R147, R148: a start command with DIM = 0 or while RUNNING changes nothing, nor do writes to DIM and STREAM_LEN
while RUNNING. -/
def Obligations.IgnoredHostWrites : Prop :=
  (∀ s : State, s.dimReg = 0#16 → startCommand s = s) ∧
  (∀ s : State, s.status = .running → startCommand s = s) ∧
  (∀ (w : Config.Widths) (r : Reg) (v : Word32) (s : State), s.status = .running → hostWrite w r v s = s)

/-- R17, R16: what the registers read as outside RUNNING, STATUS by its number, unlisted bits 0, CUR_ROW saturated;
what a write to DIM and STREAM_LEN keeps of the 32 bits; CTRL acts on bit 0 alone, and writing 0 there does nothing;
the other registers ignore writes. -/
def Obligations.RegisterMapReadsAndWrites : Prop :=
  ∀ (w : Config.Widths) (s : State), w.ok → s.status ≠ .running →
    (hostRead w .ctrl s).map BitVec.toNat = some 0 ∧
    (s.status = .idle → (hostRead w .status s).map BitVec.toNat = some 0) ∧
    (s.status = .endMarker → (hostRead w .status s).map BitVec.toNat = some 2) ∧
    (s.status = .streamExhausted → (hostRead w .status s).map BitVec.toNat = some 3) ∧
    (s.status = .errInvalidEscape → (hostRead w .status s).map BitVec.toNat = some 5) ∧
    (s.status = .errRowOverflow → (hostRead w .status s).map BitVec.toNat = some 6) ∧
    (hostRead w .dim s).map BitVec.toNat = some s.dimReg.toNat ∧
    (hostRead w .streamLen s).map BitVec.toNat = some (s.streamLenReg.toNat % 2 ^ w.posW) ∧
    (s.pos < 2 ^ w.posW → (hostRead w .pos s).map BitVec.toNat = some s.pos) ∧
    (s.unitPos < 2 ^ w.posW → (hostRead w .unitPos s).map BitVec.toNat = some s.unitPos) ∧
    (hostRead w .curRow s).map BitVec.toNat = some (min s.row (2 ^ w.rowW - 1)) ∧
    (hostRead w .curCol s).map BitVec.toNat = some s.col.toNat ∧
    (∀ v : Word32, hostWrite w .dim v s = { s with dimReg := (hostWrite w .dim v s).dimReg } ∧
      (hostRead w .dim (hostWrite w .dim v s)).map BitVec.toNat = some (v.toNat % 2 ^ 16)) ∧
    (∀ v : Word32, hostWrite w .streamLen v s = { s with streamLenReg := (hostWrite w .streamLen v s).streamLenReg } ∧
      (hostRead w .streamLen (hostWrite w .streamLen v s)).map BitVec.toNat = some (v.toNat % 2 ^ w.posW)) ∧
    (∀ v : Word32, v.getLsbD 0 = false → hostWrite w .ctrl v s = s) ∧
    (∀ v : Word32, v.getLsbD 0 = true → hostWrite w .ctrl v s = startCommand s) ∧
    (∀ (r : Reg) (v : Word32), r ≠ .ctrl → r ≠ .dim → r ≠ .streamLen → hostWrite w r v s = s)

/-- R151, R150, with log entries 11 and 13: while RUNNING the host reads STATUS, which is 1, and nothing else, and has
no move that loads a memory. -/
def Obligations.RunningHidesAllButStatus : Prop :=
  ∀ (w : Config.Widths) (s : State), s.status = .running →
    (hostRead w .status s).map BitVec.toNat = some 1 ∧
    (∀ r, r ≠ .status → hostRead w r s = none) ∧
    (∀ r c, hostReadCell r c s = none) ∧
    (∀ a bytes, hostLoadStream a bytes s = none) ∧ (∀ i c, hostLoadPalette i c s = none)

/-- 95_test_vectors.md T4 (R111, R84): a session whose stream is just `00 01` ends in END_MARKER in one step, and the
host then reads the background in every cell. -/
def Obligations.EndMarkerAloneLeavesBackground : Prop :=
  ∀ s : State, s.status ≠ .running → 1 ≤ s.dimReg.toNat → s.streamLenReg.toNat = 2 →
    s.stream.holds 0 [0x00#8, 0x01#8] = true →
    ∃ t, step (startCommand s) = .next t ∧ t.status = .endMarker ∧ t.pos = 2 ∧ t.row = 0 ∧ t.col = 0 ∧
      ∀ r c, r < s.dimReg.toNat → c < s.dimReg.toNat →
        hostReadCell r c t = some ⟨(paletteEntry s 0#8).rgb, (paletteEntry s 0#8).a, 0#8⟩

/-- R33: the packed words. -/
def Obligations.PackedWords : Prop :=
  (∀ c : Rgb, (packRgb c).extractLsb' 16 8 = c.red ∧ (packRgb c).extractLsb' 8 8 = c.green ∧
    (packRgb c).extractLsb' 0 8 = c.blue) ∧
  (∀ c : Color, (packColor c).extractLsb' 24 8 = c.r ∧ (packColor c).extractLsb' 16 8 = c.g ∧
    (packColor c).extractLsb' 8 8 = c.b ∧ (packColor c).extractLsb' 0 8 = c.a)

/-- R143, R144, R145, R121, with the document's offsets (log entry 17): a file shorter than 1048 bytes is
TruncatedHeader; any other gives dim little-endian, the palette reordered from blue, green, red, alpha, and the rest
as the stream. -/
def Obligations.LoaderParsesHeader : Prop :=
  ∀ file : List Byte,
    (file.length < 1048 → parseFile Config.documentLayout file = none) ∧
    (1048 ≤ file.length → ∃ im, parseFile Config.documentLayout file = some im ∧
      im.dim.toNat = (fileByte file 4).toNat + 256 * (fileByte file 5).toNat ∧
      im.palette.length = 256 ∧
      (∀ i, i < 256 → im.palette[i]? = some
        ⟨fileByte file (24 + 4 * i + 2), fileByte file (24 + 4 * i + 1), fileByte file (24 + 4 * i),
          fileByte file (24 + 4 * i + 3)⟩) ∧
      im.stream.length + 1048 = file.length ∧
      ∀ a, im.stream[a]? = file[1048 + a]?)

/-- R142, R143, R149: a file that loads leaves a state in which all seven launch premises hold. -/
def Obligations.LoadedFileMeetsLaunchPremises : Prop :=
  ∀ (w : Config.Widths) (l : Config.HeaderLayout) (file : List Byte) (s t : State), w.ok →
    loadFile w l file s = .loaded t → LaunchPremises w t

/-- R142 steps 2 to 5, R143 to R145, R121, with the document's offsets (log entry 17) and log entry 23: which files load,
and that loading places the file's dim, stream length, every palette entry and every stream byte, and changes nothing
else. -/
def Obligations.LoadFilePlacesImage : Prop :=
  ∀ (w : Config.Widths) (file : List Byte) (s : State), w.ok →
    (file.length < 1048 → loadFile w Config.documentLayout file s = .truncatedHeader) ∧
    (1048 ≤ file.length →
      (fileByte file 4 = 0#8 ∧ fileByte file 5 = 0#8) ∨ s.status = .running ∨ 1048 + 2 ^ w.posW ≤ file.length →
      loadFile w Config.documentLayout file s = .outsideContract) ∧
    (1048 ≤ file.length → fileByte file 4 ≠ 0#8 ∨ fileByte file 5 ≠ 0#8 → s.status ≠ .running →
      file.length < 1048 + 2 ^ w.posW → ∃ t, loadFile w Config.documentLayout file s = .loaded t ∧
        t.dimReg.toNat = (fileByte file 4).toNat + 256 * (fileByte file 5).toNat ∧
        t.streamLenReg.toNat + 1048 = file.length ∧
        (∀ i, i < 256 → t.palette.read i = some
          ⟨fileByte file (24 + 4 * i + 2), fileByte file (24 + 4 * i + 1), fileByte file (24 + 4 * i),
            fileByte file (24 + 4 * i + 3)⟩) ∧
        (∀ a, 1048 + a < file.length → t.stream.read a = file[1048 + a]?) ∧
        (∀ i, 256 ≤ i → t.palette.read i = s.palette.read i) ∧
        (∀ a, file.length ≤ 1048 + a → t.stream.read a = s.stream.read a) ∧
        t = { s with
          dimReg := t.dimReg, streamLenReg := t.streamLenReg, palette := t.palette, stream := t.stream })

/-- R16: the numbers of the status register, which of them are halt codes, and which are success. -/
def Obligations.StatusCodes : Prop :=
  (Status.idle.code = 0#3 ∧ Status.running.code = 1#3 ∧ Status.endMarker.code = 2#3 ∧ Status.streamExhausted.code = 3#3 ∧
    Status.errTruncatedHeader.code = 4#3 ∧ Status.errInvalidEscape.code = 5#3 ∧ Status.errRowOverflow.code = 6#3) ∧
  (∀ st : Status, st.isHalt = true ↔ st.code = 2#3 ∨ st.code = 3#3 ∨ st.code = 5#3 ∨ st.code = 6#3) ∧
  (∀ st : Status, st.isSuccess = true ↔ st.code = 2#3 ∨ st.code = 3#3) ∧
  ∀ s : State, done s = s.status.isHalt

/-- R17, with log entry 12: an access by offset is the access of the register R17 puts there; any other offset reads
nothing and ignores writes. -/
def Obligations.OffsetAccesses : Prop :=
  (∀ (w : Config.Widths) (s : State) (v : Word32),
    (hostReadAt w 0x00 s = hostRead w .ctrl s ∧ hostWriteAt w 0x00 v s = hostWrite w .ctrl v s) ∧
    (hostReadAt w 0x04 s = hostRead w .status s ∧ hostWriteAt w 0x04 v s = hostWrite w .status v s) ∧
    (hostReadAt w 0x08 s = hostRead w .dim s ∧ hostWriteAt w 0x08 v s = hostWrite w .dim v s) ∧
    (hostReadAt w 0x0C s = hostRead w .streamLen s ∧ hostWriteAt w 0x0C v s = hostWrite w .streamLen v s) ∧
    (hostReadAt w 0x10 s = hostRead w .pos s ∧ hostWriteAt w 0x10 v s = hostWrite w .pos v s) ∧
    (hostReadAt w 0x14 s = hostRead w .unitPos s ∧ hostWriteAt w 0x14 v s = hostWrite w .unitPos v s) ∧
    (hostReadAt w 0x18 s = hostRead w .curRow s ∧ hostWriteAt w 0x18 v s = hostWrite w .curRow v s) ∧
    (hostReadAt w 0x1C s = hostRead w .curCol s ∧ hostWriteAt w 0x1C v s = hostWrite w .curCol v s)) ∧
  ∀ (w : Config.Widths) (off : Nat) (v : Word32) (s : State),
    (∀ k, k < 8 → off ≠ 4 * k) → hostReadAt w off s = none ∧ hostWriteAt w off v s = s
end

