-- ==== Sys2Proof/Laws/Memory.lean ====
section
/-! SUPPORT. What the memory operations do: canonical form, read after write, extensionality. -/

namespace Sys2Proof.Machine

open Sys2Proof

variable {α : Type}

theorem Memory.lookup_insertCell (cells : List (Nat × α)) (a b : Nat) (v : α) :
    Memory.lookup (Memory.insertCell cells a v) b = if a = b then some v else Memory.lookup cells b := by
  induction cells with
  | nil => simp [Memory.insertCell, Memory.lookup]
  | cons c rest ih =>
    obtain ⟨k, w⟩ := c
    simp only [Memory.insertCell]
    split
    · simp [Memory.lookup]
    · split
      · rename_i hak
        subst hak
        by_cases h : a = b <;> simp [Memory.lookup, h]
      · simp only [Memory.lookup, ih]
        by_cases h1 : k = b <;> by_cases h2 : a = b <;> simp_all

theorem Memory.lookup_eraseCell (cells : List (Nat × α)) (a b : Nat) :
    Memory.lookup (Memory.eraseCell cells a) b = if a = b then none else Memory.lookup cells b := by
  induction cells with
  | nil => simp [Memory.eraseCell, Memory.lookup]
  | cons c rest ih =>
    obtain ⟨k, w⟩ := c
    simp only [Memory.eraseCell] at ih ⊢
    by_cases hk : k = a
    · subst hk
      simp only [ne_eq, not_true_eq_false, decide_false, Bool.false_eq_true, not_false_eq_true,
        List.filter_cons_of_neg, ih, Memory.lookup]
      by_cases hb : k = b <;> simp [hb]
    · simp only [ne_eq, hk, not_false_eq_true, decide_true, List.filter_cons_of_pos, Memory.lookup, ih]
      by_cases h1 : k = b <;> by_cases h2 : a = b <;> simp_all

/-- A read after a write: the value written at its address, what was there elsewhere. -/
theorem Memory.read_write [DecidableEq α] (m : Memory α) (a b : Nat) (v : α) :
    (m.write a v).read b = if a = b then some v else m.read b := by
  by_cases hf : m.fill = some v
  · by_cases h : a = b <;> simp [Memory.write, Memory.read, Memory.lookup_eraseCell, h, hf]
  · by_cases h : a = b <;> simp [Memory.write, Memory.read, Memory.lookup_insertCell, h, hf]

@[simp] theorem Memory.read_write_same [DecidableEq α] (m : Memory α) (a : Nat) (v : α) :
    (m.write a v).read a = some v := by simp [Memory.read_write]

theorem Memory.read_write_other [DecidableEq α] (m : Memory α) {a b : Nat} (v : α) (h : a ≠ b) :
    (m.write a v).read b = m.read b := by simp [Memory.read_write, h]

@[simp] theorem Memory.fill_write [DecidableEq α] (m : Memory α) (a : Nat) (v : α) :
    (m.write a v).fill = m.fill := by unfold Memory.write; split <;> rfl

@[simp] theorem Memory.read_filled (v : α) (a : Nat) : (Memory.filled v).read a = some v := rfl

@[simp] theorem Memory.read_blank (a : Nat) : (Memory.blank : Memory α).read a = none := rfl

theorem Memory.mem_insertCell {cells : List (Nat × α)} {a : Nat} {v : α} {c : Nat × α}
    (h : c ∈ Memory.insertCell cells a v) : c = (a, v) ∨ c ∈ cells := by
  induction cells with
  | nil => simpa [Memory.insertCell] using h
  | cons d rest ih =>
    obtain ⟨k, w⟩ := d
    simp only [Memory.insertCell] at h
    split at h
    · simpa using h
    · split at h
      · rcases List.mem_cons.1 h with h | h
        · exact .inl h
        · exact .inr (List.mem_cons_of_mem _ h)
      · rcases List.mem_cons.1 h with h | h
        · exact .inr (h ▸ List.mem_cons_self)
        · exact (ih h).imp_right (List.mem_cons_of_mem _)

theorem Memory.rising_insertCell {cells : List (Nat × α)} (a : Nat) (v : α)
    (h : cells.Pairwise (fun c d => c.1 < d.1)) :
    (Memory.insertCell cells a v).Pairwise (fun c d => c.1 < d.1) := by
  induction cells with
  | nil => simp [Memory.insertCell]
  | cons d rest ih =>
    obtain ⟨k, w⟩ := d
    obtain ⟨hk, hr⟩ := List.pairwise_cons.1 h
    simp only [Memory.insertCell]
    split
    · rename_i hak
      refine List.pairwise_cons.2 ⟨fun e he => ?_, h⟩
      rcases List.mem_cons.1 he with he | he
      · simpa [he] using hak
      · exact lt_trans hak (hk e he)
    · split
      · subst_vars
        exact List.pairwise_cons.2 ⟨hk, hr⟩
      · refine List.pairwise_cons.2 ⟨fun e he => ?_, ih hr⟩
        rcases Memory.mem_insertCell he with he | he
        · subst he
          simp only
          omega
        · exact hk e he

/-- Every cell a write leaves listed is the one written or was listed before. -/
theorem Memory.mem_write [DecidableEq α] {m : Memory α} {a : Nat} {v : α} {c : Nat × α}
    (h : c ∈ (m.write a v).cells) : c.1 = a ∨ c ∈ m.cells := by
  unfold Memory.write at h
  split at h
  · exact .inr (List.mem_of_mem_filter h)
  · exact (Memory.mem_insertCell h).imp_left (fun e => by rw [e])

/-- A write keeps the canonical form. -/
theorem Memory.wf_write [DecidableEq α] {m : Memory α} (a : Nat) (v : α) (h : m.wf) : (m.write a v).wf := by
  obtain ⟨hr, hf⟩ := h
  unfold Memory.write
  split
  · exact ⟨hr.filter _, fun c hc => hf c (List.mem_of_mem_filter hc)⟩
  · rename_i hv
    refine ⟨Memory.rising_insertCell a v hr, fun c hc => ?_⟩
    rcases Memory.mem_insertCell hc with hc | hc
    · rw [hc]; exact hv
    · exact hf c hc

theorem Memory.wf_writeList [DecidableEq α] {m : Memory α} (a : Nat) (vs : List α) (h : m.wf) :
    (m.writeList a vs).wf := by
  induction vs generalizing a with
  | nil => exact h
  | cons v vs ih => exact Memory.wf_write a v (ih (a + 1))

theorem Memory.wf_filled [DecidableEq α] (v : α) : (Memory.filled v).wf := ⟨List.Pairwise.nil, by simp [Memory.filled]⟩

theorem Memory.wf_blank [DecidableEq α] : (Memory.blank : Memory α).wf :=
  ⟨List.Pairwise.nil, by simp [Memory.blank]⟩

/-- A read after a block write. -/
theorem Memory.read_writeList [DecidableEq α] (m : Memory α) (a : Nat) (vs : List α) (b : Nat) :
    (m.writeList a vs).read b = if a ≤ b ∧ b < a + vs.length then vs[b - a]? else m.read b := by
  induction vs generalizing a with
  | nil =>
    have : ¬ (a ≤ b ∧ b < a) := by omega
    simp [Memory.writeList, this]
  | cons v vs ih =>
    simp only [Memory.writeList, Memory.read_write, ih, List.length_cons]
    by_cases h : a = b
    · subst h; simp
    · by_cases h2 : a + 1 ≤ b ∧ b < a + 1 + vs.length
      · have h3 : a ≤ b ∧ b < a + (vs.length + 1) := by omega
        have h4 : b - a = (b - (a + 1)) + 1 := by omega
        simp [h, h2, h3, h4]
      · have h3 : ¬ (a ≤ b ∧ b < a + (vs.length + 1)) := by omega
        simp only [h, h2, h3, if_false]

theorem Memory.lookup_eq_none_of_lt {cells : List (Nat × α)} {a : Nat} (h : ∀ c ∈ cells, a < c.1) :
    Memory.lookup cells a = none := by
  induction cells with
  | nil => rfl
  | cons c rest ih =>
    obtain ⟨k, w⟩ := c
    have hk : a < k := h (k, w) List.mem_cons_self
    simp only [Memory.lookup, if_neg (show ¬ k = a by omega)]
    exact ih (fun c hc => h c (List.mem_cons_of_mem _ hc))

/-- Two rising lists with the same lookups are the same list. -/
theorem Memory.cells_ext {l r : List (Nat × α)} (hl : l.Pairwise (fun c d => c.1 < d.1))
    (hr : r.Pairwise (fun c d => c.1 < d.1)) (h : ∀ a, Memory.lookup l a = Memory.lookup r a) : l = r := by
  induction l generalizing r with
  | nil =>
    cases r with
    | nil => rfl
    | cons d r => simpa [Memory.lookup] using h d.1
  | cons c l ih =>
    cases r with
    | nil => simpa [Memory.lookup] using h c.1
    | cons d r =>
      obtain ⟨k, v⟩ := c
      obtain ⟨j, w⟩ := d
      obtain ⟨hk, hl2⟩ := List.pairwise_cons.1 hl
      obtain ⟨hj, hr2⟩ := List.pairwise_cons.1 hr
      have hkj : k = j := by
        rcases lt_trichotomy k j with hlt | he | hlt
        · have := h k
          rw [Memory.lookup_eq_none_of_lt (cells := (j, w) :: r)] at this
          · simp [Memory.lookup] at this
          · intro c hc
            rcases List.mem_cons.1 hc with rfl | hc
            · exact hlt
            · exact lt_trans hlt (hj c hc)
        · exact he
        · have := h j
          rw [Memory.lookup_eq_none_of_lt (cells := (k, v) :: l)] at this
          · simp [Memory.lookup] at this
          · intro c hc
            rcases List.mem_cons.1 hc with rfl | hc
            · exact hlt
            · exact lt_trans hlt (hk c hc)
      subst hkj
      have hvw : v = w := by simpa [Memory.lookup] using h k
      subst hvw
      refine congrArg _ (ih hl2 hr2 fun a => ?_)
      by_cases ha : k = a
      · subst ha
        rw [Memory.lookup_eq_none_of_lt hk, Memory.lookup_eq_none_of_lt hj]
      · simpa [Memory.lookup, ha] using h a

/-- `holds` says of each byte of the list that it stands at its address. -/
theorem Memory.holds_iff [DecidableEq α] (m : Memory α) (a : Nat) (vs : List α) :
    m.holds a vs = true ↔ ∀ k, (h : k < vs.length) → m.read (a + k) = some vs[k] := by
  induction vs generalizing a with
  | nil => simp [Memory.holds]
  | cons v vs ih =>
    simp only [Memory.holds, Bool.and_eq_true, decide_eq_true_eq, ih, List.length_cons]
    constructor
    · rintro ⟨h0, h1⟩ k hk
      cases k with
      | zero => simpa using h0
      | succ k =>
        rw [List.getElem_cons_succ, show a + (k + 1) = a + 1 + k by omega]
        exact h1 k (by omega)
    · intro h
      refine ⟨by simpa using h 0 (by omega), fun k hk => ?_⟩
      have := h (k + 1) (by omega)
      rwa [List.getElem_cons_succ, show a + (k + 1) = a + 1 + k by omega] at this

end Sys2Proof.Machine
end

