-- ==== Sys2Proof/Laws/Loader.lean ====
section
/-! SUPPORT. What parsing and loading a file can do, said once. -/

namespace Sys2Proof.Machine

open Sys2Proof

theorem parseFile_of_short {l : Config.HeaderLayout} {file : List Byte} (h : file.length < streamOffset l) :
    parseFile l file = none := if_pos (.inl h)

theorem parseFile_cases {l : Config.HeaderLayout} {file : List Byte} {im : Image} (h : parseFile l file = some im) :
    streamOffset l ≤ file.length ∧ l.dimOffset + 2 ≤ file.length ∧
      im = ⟨parseDim l file, (List.range Config.palEntries).map (parseEntry l file), file.drop (streamOffset l)⟩ := by
  unfold parseFile at h
  split at h
  · cases h
  · exact ⟨by omega, by omega, (Option.some.inj h).symm⟩

theorem parseFile_of_long {l : Config.HeaderLayout} {file : List Byte} (h : streamOffset l ≤ file.length)
    (hd : l.dimOffset + 2 ≤ file.length) :
    parseFile l file =
      some ⟨parseDim l file, (List.range Config.palEntries).map (parseEntry l file), file.drop (streamOffset l)⟩ :=
  if_neg (by omega)

/-- The one way a file loads. -/
theorem loadFile_eq_loaded {w : Config.Widths} {l : Config.HeaderLayout} {file : List Byte} {s t : State} :
    loadFile w l file s = .loaded t ↔ ∃ im, parseFile l file = some im ∧ im.dim ≠ 0#16 ∧ s.status ≠ .running ∧
      im.stream.length < 2 ^ w.posW ∧
      t = { s with
        dimReg := im.dim
        streamLenReg := BitVec.ofNat 32 im.stream.length
        palette := s.palette.writeList 0 im.palette
        stream := s.stream.writeList 0 im.stream } := by
  unfold loadFile
  cases parseFile l file with
  | none => simp
  | some im =>
    by_cases hc : im.dim = 0#16 ∨ s.status = .running ∨ 2 ^ w.posW ≤ im.stream.length
    · simp only [if_pos hc, Option.some.injEq, exists_eq_left']
      refine ⟨fun h => (by cases h), fun h => ?_⟩
      rcases hc with hc | hc | hc
      · exact absurd hc h.1
      · exact absurd hc h.2.1
      · exact absurd h.2.2.1 (by omega)
    · simp only [if_neg hc, Option.some.injEq, exists_eq_left', LoadResult.loaded.injEq]
      simp only [not_or, Nat.not_le] at hc
      exact ⟨fun h => ⟨hc.1, hc.2.1, hc.2.2, h.symm⟩, fun h => h.2.2.2.symm⟩

/-- A loaded list is what the memory then reads, and nothing else changed. -/
theorem Memory.read_writeList_zero {α : Type} [DecidableEq α] (m : Memory α) (vs : List α) (a : Nat) :
    (m.writeList 0 vs).read a = if a < vs.length then vs[a]? else m.read a := by
  simpa using Memory.read_writeList m 0 vs a

end Sys2Proof.Machine
end

