-- ==== Sys2Proof/Laws/State.lean ====
section
/-! SUPPORT. One lemma per field per update of the state, so that no later proof unfolds an update. -/

namespace Sys2Proof.Machine

open Sys2Proof

/-! ### halt -/

@[simp] theorem halt_row (c : Status) (s : State) : (halt c s).row = s.row := rfl

@[simp] theorem halt_col (c : Status) (s : State) : (halt c s).col = s.col := rfl

@[simp] theorem halt_pos (c : Status) (s : State) : (halt c s).pos = s.pos := rfl

@[simp] theorem halt_unitPos (c : Status) (s : State) : (halt c s).unitPos = s.unitPos := rfl

@[simp] theorem halt_status (c : Status) (s : State) : (halt c s).status = c := rfl

@[simp] theorem halt_rgb (c : Status) (s : State) : (halt c s).rgb = s.rgb := rfl

@[simp] theorem halt_alpha (c : Status) (s : State) : (halt c s).alpha = s.alpha := rfl

@[simp] theorem halt_index (c : Status) (s : State) : (halt c s).index = s.index := rfl

@[simp] theorem halt_dim (c : Status) (s : State) : (halt c s).dim = s.dim := rfl

@[simp] theorem halt_len (c : Status) (s : State) : (halt c s).len = s.len := rfl

@[simp] theorem halt_dimReg (c : Status) (s : State) : (halt c s).dimReg = s.dimReg := rfl

@[simp] theorem halt_streamLenReg (c : Status) (s : State) : (halt c s).streamLenReg = s.streamLenReg := rfl

@[simp] theorem halt_stream (c : Status) (s : State) : (halt c s).stream = s.stream := rfl

@[simp] theorem halt_palette (c : Status) (s : State) : (halt c s).palette = s.palette := rfl

@[simp] theorem halt_phase (c : Status) (s : State) : (halt c s).phase = .halted := rfl

@[simp] theorem halt_rem (c : Status) (s : State) : (halt c s).rem = s.rem := rfl

@[simp] theorem halt_idxLatch (c : Status) (s : State) : (halt c s).idxLatch = s.idxLatch := rfl

@[simp] theorem halt_dxLatch (c : Status) (s : State) : (halt c s).dxLatch = s.dxLatch := rfl

@[simp] theorem halt_paletteEpoch (c : Status) (s : State) : (halt c s).paletteEpoch = s.paletteEpoch := rfl

/-! ### advance -/

@[simp] theorem advance_row (s : State) : (advance s).row = if s.col.toNat + 1 = s.dim.toNat then s.row + 1 else s.row := by
  unfold advance; split <;> rfl

@[simp] theorem advance_col (s : State) : (advance s).col = if s.col.toNat + 1 = s.dim.toNat then 0#16 else BitVec.ofNat 16 (s.col.toNat + 1) := by
  unfold advance; split <;> rfl

@[simp] theorem advance_pos (s : State) : (advance s).pos = s.pos := by
  unfold advance; split <;> rfl

@[simp] theorem advance_unitPos (s : State) : (advance s).unitPos = s.unitPos := by
  unfold advance; split <;> rfl

@[simp] theorem advance_status (s : State) : (advance s).status = s.status := by
  unfold advance; split <;> rfl

@[simp] theorem advance_rgb (s : State) : (advance s).rgb = s.rgb := by
  unfold advance; split <;> rfl

@[simp] theorem advance_alpha (s : State) : (advance s).alpha = s.alpha := by
  unfold advance; split <;> rfl

@[simp] theorem advance_index (s : State) : (advance s).index = s.index := by
  unfold advance; split <;> rfl

@[simp] theorem advance_dim (s : State) : (advance s).dim = s.dim := by
  unfold advance; split <;> rfl

@[simp] theorem advance_len (s : State) : (advance s).len = s.len := by
  unfold advance; split <;> rfl

@[simp] theorem advance_dimReg (s : State) : (advance s).dimReg = s.dimReg := by
  unfold advance; split <;> rfl

@[simp] theorem advance_streamLenReg (s : State) : (advance s).streamLenReg = s.streamLenReg := by
  unfold advance; split <;> rfl

@[simp] theorem advance_stream (s : State) : (advance s).stream = s.stream := by
  unfold advance; split <;> rfl

@[simp] theorem advance_palette (s : State) : (advance s).palette = s.palette := by
  unfold advance; split <;> rfl

@[simp] theorem advance_phase (s : State) : (advance s).phase = s.phase := by
  unfold advance; split <;> rfl

@[simp] theorem advance_rem (s : State) : (advance s).rem = s.rem := by
  unfold advance; split <;> rfl

@[simp] theorem advance_idxLatch (s : State) : (advance s).idxLatch = s.idxLatch := by
  unfold advance; split <;> rfl

@[simp] theorem advance_dxLatch (s : State) : (advance s).dxLatch = s.dxLatch := by
  unfold advance; split <;> rfl

@[simp] theorem advance_paletteEpoch (s : State) : (advance s).paletteEpoch = s.paletteEpoch := by
  unfold advance; split <;> rfl

/-! ### jump -/

@[simp] theorem jump_row (dX dY : Byte) (s : State) : (jump dX dY s).row = s.row + dY.toNat := by
  unfold jump; split <;> rfl

@[simp] theorem jump_col (dX dY : Byte) (s : State) : (jump dX dY s).col = if s.dim.toNat ≤ s.col.toNat + dX.toNat then 0#16 else BitVec.ofNat 16 (s.col.toNat + dX.toNat) := by
  unfold jump; split <;> rfl

@[simp] theorem jump_pos (dX dY : Byte) (s : State) : (jump dX dY s).pos = s.pos := by
  unfold jump; split <;> rfl

@[simp] theorem jump_unitPos (dX dY : Byte) (s : State) : (jump dX dY s).unitPos = s.unitPos := by
  unfold jump; split <;> rfl

@[simp] theorem jump_status (dX dY : Byte) (s : State) : (jump dX dY s).status = s.status := by
  unfold jump; split <;> rfl

@[simp] theorem jump_rgb (dX dY : Byte) (s : State) : (jump dX dY s).rgb = s.rgb := by
  unfold jump; split <;> rfl

@[simp] theorem jump_alpha (dX dY : Byte) (s : State) : (jump dX dY s).alpha = s.alpha := by
  unfold jump; split <;> rfl

@[simp] theorem jump_index (dX dY : Byte) (s : State) : (jump dX dY s).index = s.index := by
  unfold jump; split <;> rfl

@[simp] theorem jump_dim (dX dY : Byte) (s : State) : (jump dX dY s).dim = s.dim := by
  unfold jump; split <;> rfl

@[simp] theorem jump_len (dX dY : Byte) (s : State) : (jump dX dY s).len = s.len := by
  unfold jump; split <;> rfl

@[simp] theorem jump_dimReg (dX dY : Byte) (s : State) : (jump dX dY s).dimReg = s.dimReg := by
  unfold jump; split <;> rfl

@[simp] theorem jump_streamLenReg (dX dY : Byte) (s : State) : (jump dX dY s).streamLenReg = s.streamLenReg := by
  unfold jump; split <;> rfl

@[simp] theorem jump_stream (dX dY : Byte) (s : State) : (jump dX dY s).stream = s.stream := by
  unfold jump; split <;> rfl

@[simp] theorem jump_palette (dX dY : Byte) (s : State) : (jump dX dY s).palette = s.palette := by
  unfold jump; split <;> rfl

@[simp] theorem jump_phase (dX dY : Byte) (s : State) : (jump dX dY s).phase = s.phase := by
  unfold jump; split <;> rfl

@[simp] theorem jump_rem (dX dY : Byte) (s : State) : (jump dX dY s).rem = s.rem := by
  unfold jump; split <;> rfl

@[simp] theorem jump_idxLatch (dX dY : Byte) (s : State) : (jump dX dY s).idxLatch = s.idxLatch := by
  unfold jump; split <;> rfl

@[simp] theorem jump_dxLatch (dX dY : Byte) (s : State) : (jump dX dY s).dxLatch = s.dxLatch := by
  unfold jump; split <;> rfl

@[simp] theorem jump_paletteEpoch (dX dY : Byte) (s : State) : (jump dX dY s).paletteEpoch = s.paletteEpoch := by
  unfold jump; split <;> rfl

/-! ### writePixel -/

@[simp] theorem writePixel_row (a : Nat) (p : Pixel) (s : State) : (writePixel a p s).row = s.row := rfl

@[simp] theorem writePixel_col (a : Nat) (p : Pixel) (s : State) : (writePixel a p s).col = s.col := rfl

@[simp] theorem writePixel_pos (a : Nat) (p : Pixel) (s : State) : (writePixel a p s).pos = s.pos := rfl

@[simp] theorem writePixel_unitPos (a : Nat) (p : Pixel) (s : State) : (writePixel a p s).unitPos = s.unitPos := rfl

@[simp] theorem writePixel_status (a : Nat) (p : Pixel) (s : State) : (writePixel a p s).status = s.status := rfl

@[simp] theorem writePixel_rgb (a : Nat) (p : Pixel) (s : State) : (writePixel a p s).rgb = s.rgb.write a p.rgb := rfl

@[simp] theorem writePixel_alpha (a : Nat) (p : Pixel) (s : State) : (writePixel a p s).alpha = s.alpha.write a p.alpha := rfl

@[simp] theorem writePixel_index (a : Nat) (p : Pixel) (s : State) : (writePixel a p s).index = s.index.write a p.index := rfl

@[simp] theorem writePixel_dim (a : Nat) (p : Pixel) (s : State) : (writePixel a p s).dim = s.dim := rfl

@[simp] theorem writePixel_len (a : Nat) (p : Pixel) (s : State) : (writePixel a p s).len = s.len := rfl

@[simp] theorem writePixel_dimReg (a : Nat) (p : Pixel) (s : State) : (writePixel a p s).dimReg = s.dimReg := rfl

@[simp] theorem writePixel_streamLenReg (a : Nat) (p : Pixel) (s : State) : (writePixel a p s).streamLenReg = s.streamLenReg := rfl

@[simp] theorem writePixel_stream (a : Nat) (p : Pixel) (s : State) : (writePixel a p s).stream = s.stream := rfl

@[simp] theorem writePixel_palette (a : Nat) (p : Pixel) (s : State) : (writePixel a p s).palette = s.palette := rfl

@[simp] theorem writePixel_phase (a : Nat) (p : Pixel) (s : State) : (writePixel a p s).phase = s.phase := rfl

@[simp] theorem writePixel_rem (a : Nat) (p : Pixel) (s : State) : (writePixel a p s).rem = s.rem := rfl

@[simp] theorem writePixel_idxLatch (a : Nat) (p : Pixel) (s : State) : (writePixel a p s).idxLatch = s.idxLatch := rfl

@[simp] theorem writePixel_dxLatch (a : Nat) (p : Pixel) (s : State) : (writePixel a p s).dxLatch = s.dxLatch := rfl

@[simp] theorem writePixel_paletteEpoch (a : Nat) (p : Pixel) (s : State) : (writePixel a p s).paletteEpoch = s.paletteEpoch := rfl

/-! ### prefill -/

@[simp] theorem prefill_row (s : State) : (prefill s).row = s.row := rfl

@[simp] theorem prefill_col (s : State) : (prefill s).col = s.col := rfl

@[simp] theorem prefill_pos (s : State) : (prefill s).pos = s.pos := rfl

@[simp] theorem prefill_unitPos (s : State) : (prefill s).unitPos = s.unitPos := rfl

@[simp] theorem prefill_status (s : State) : (prefill s).status = s.status := rfl

@[simp] theorem prefill_rgb (s : State) : (prefill s).rgb = Memory.filled (resolve s 0#8).rgb := rfl

@[simp] theorem prefill_alpha (s : State) : (prefill s).alpha = Memory.filled (resolve s 0#8).alpha := rfl

@[simp] theorem prefill_index (s : State) : (prefill s).index = Memory.filled 0#8 := rfl

@[simp] theorem prefill_dim (s : State) : (prefill s).dim = s.dim := rfl

@[simp] theorem prefill_len (s : State) : (prefill s).len = s.len := rfl

@[simp] theorem prefill_dimReg (s : State) : (prefill s).dimReg = s.dimReg := rfl

@[simp] theorem prefill_streamLenReg (s : State) : (prefill s).streamLenReg = s.streamLenReg := rfl

@[simp] theorem prefill_stream (s : State) : (prefill s).stream = s.stream := rfl

@[simp] theorem prefill_palette (s : State) : (prefill s).palette = s.palette := rfl

@[simp] theorem prefill_phase (s : State) : (prefill s).phase = s.phase := rfl

@[simp] theorem prefill_rem (s : State) : (prefill s).rem = s.rem := rfl

@[simp] theorem prefill_idxLatch (s : State) : (prefill s).idxLatch = s.idxLatch := rfl

@[simp] theorem prefill_dxLatch (s : State) : (prefill s).dxLatch = s.dxLatch := rfl

@[simp] theorem prefill_paletteEpoch (s : State) : (prefill s).paletteEpoch = s.paletteEpoch := rfl

/-! ### startSession -/

@[simp] theorem startSession_row (s : State) : (startSession s).row = 0 := rfl

@[simp] theorem startSession_col (s : State) : (startSession s).col = 0#16 := rfl

@[simp] theorem startSession_pos (s : State) : (startSession s).pos = 0 := rfl

@[simp] theorem startSession_unitPos (s : State) : (startSession s).unitPos = 0 := rfl

@[simp] theorem startSession_status (s : State) : (startSession s).status = .running := rfl

@[simp] theorem startSession_rgb (s : State) : (startSession s).rgb = Memory.filled (resolve s 0#8).rgb := rfl

@[simp] theorem startSession_alpha (s : State) : (startSession s).alpha = Memory.filled (resolve s 0#8).alpha := rfl

@[simp] theorem startSession_index (s : State) : (startSession s).index = Memory.filled 0#8 := rfl

@[simp] theorem startSession_dim (s : State) : (startSession s).dim = s.dimReg := rfl

@[simp] theorem startSession_len (s : State) : (startSession s).len = s.streamLenReg.toNat := rfl

@[simp] theorem startSession_dimReg (s : State) : (startSession s).dimReg = s.dimReg := rfl

@[simp] theorem startSession_streamLenReg (s : State) : (startSession s).streamLenReg = s.streamLenReg := rfl

@[simp] theorem startSession_stream (s : State) : (startSession s).stream = s.stream := rfl

@[simp] theorem startSession_palette (s : State) : (startSession s).palette = s.palette := rfl

@[simp] theorem startSession_phase (s : State) : (startSession s).phase = .fetchB0 := rfl

@[simp] theorem startSession_rem (s : State) : (startSession s).rem = 0#8 := rfl

@[simp] theorem startSession_idxLatch (s : State) : (startSession s).idxLatch = s.idxLatch := rfl

@[simp] theorem startSession_dxLatch (s : State) : (startSession s).dxLatch = s.dxLatch := rfl

@[simp] theorem startSession_paletteEpoch (s : State) : (startSession s).paletteEpoch = s.paletteEpoch := rfl

/-! ### hardwareReset -/

@[simp] theorem hardwareReset_row (s : State) : (hardwareReset s).row = 0 := rfl

@[simp] theorem hardwareReset_col (s : State) : (hardwareReset s).col = 0#16 := rfl

@[simp] theorem hardwareReset_pos (s : State) : (hardwareReset s).pos = 0 := rfl

@[simp] theorem hardwareReset_unitPos (s : State) : (hardwareReset s).unitPos = 0 := rfl

@[simp] theorem hardwareReset_status (s : State) : (hardwareReset s).status = .idle := rfl

@[simp] theorem hardwareReset_rgb (s : State) : (hardwareReset s).rgb = Memory.blank := rfl

@[simp] theorem hardwareReset_alpha (s : State) : (hardwareReset s).alpha = Memory.blank := rfl

@[simp] theorem hardwareReset_index (s : State) : (hardwareReset s).index = Memory.blank := rfl

@[simp] theorem hardwareReset_dim (s : State) : (hardwareReset s).dim = 0#16 := rfl

@[simp] theorem hardwareReset_len (s : State) : (hardwareReset s).len = 0 := rfl

@[simp] theorem hardwareReset_dimReg (s : State) : (hardwareReset s).dimReg = 0#16 := rfl

@[simp] theorem hardwareReset_streamLenReg (s : State) : (hardwareReset s).streamLenReg = 0#32 := rfl

@[simp] theorem hardwareReset_stream (s : State) : (hardwareReset s).stream = Memory.blank := rfl

@[simp] theorem hardwareReset_palette (s : State) : (hardwareReset s).palette = Memory.blank := rfl

@[simp] theorem hardwareReset_phase (s : State) : (hardwareReset s).phase = .fetchB0 := rfl

@[simp] theorem hardwareReset_rem (s : State) : (hardwareReset s).rem = 0#8 := rfl

@[simp] theorem hardwareReset_idxLatch (s : State) : (hardwareReset s).idxLatch = 0#8 := rfl

@[simp] theorem hardwareReset_dxLatch (s : State) : (hardwareReset s).dxLatch = 0#8 := rfl

@[simp] theorem hardwareReset_paletteEpoch (s : State) : (hardwareReset s).paletteEpoch = s.paletteEpoch + 1 := rfl

end Sys2Proof.Machine
end

