-- ==== Sys2Proof/Laws/Ops.lean ====
section
/-! SUPPORT. For each shared operation, once: everything it can answer. Later proofs cite these and do not unfold the
operation. -/

namespace Sys2Proof.Machine

open Sys2Proof

variable {α β : Type}

@[simp] theorem Flow.andThen_go (a : α) (s : State) (k : α → State → Flow β) :
    (Flow.go a s).andThen k = k a s := rfl

@[simp] theorem Flow.andThen_stop (s : State) (k : α → State → Flow β) :
    (Flow.stop s : Flow α).andThen k = .stop s := rfl

@[simp] theorem Flow.andThen_fault (f : Fault) (k : α → State → Flow β) :
    (Flow.fault f : Flow α).andThen k = .fault f := rfl

@[simp] theorem Flow.outcome_go (a : α) (s : State) : (Flow.go a s).outcome = .next s := rfl
@[simp] theorem Flow.outcome_stop (s : State) : (Flow.stop s : Flow α).outcome = .next s := rfl
@[simp] theorem Flow.outcome_fault (f : Fault) : (Flow.fault f : Flow α).outcome = .fault f := rfl

/-- R92: the three answers of `nextByte`. -/
theorem nextByte_cases (s : State) :
    (s.len ≤ s.pos ∧ nextByte s = .stop (halt .streamExhausted s)) ∨
    (s.pos < s.len ∧ ∃ v, s.stream.read s.pos = some v ∧ nextByte s = .go v { s with pos := s.pos + 1 }) ∨
    (s.pos < s.len ∧ s.stream.read s.pos = none ∧ nextByte s = .fault (.streamNotLoaded s.pos)) := by
  unfold nextByte
  by_cases h : s.len ≤ s.pos
  · exact .inl ⟨h, by simp [h]⟩
  · simp only [h, if_false]
    cases hr : s.stream.read s.pos with
    | none => exact .inr (.inr ⟨by omega, rfl, rfl⟩)
    | some v => exact .inr (.inl ⟨by omega, v, rfl, rfl⟩)

theorem nextByte_of_end {s : State} (h : s.len ≤ s.pos) : nextByte s = .stop (halt .streamExhausted s) := by
  simp [nextByte, h]

theorem nextByte_of_read {s : State} {v : Byte} (h : s.pos < s.len) (hr : s.stream.read s.pos = some v) :
    nextByte s = .go v { s with pos := s.pos + 1 } := by
  simp [nextByte, hr, show ¬ s.len ≤ s.pos by omega]

/-- R82: the two answers of `paint`. -/
theorem paint_of_valid {s : State} (i : Byte) (h : cursorValid s = true) :
    paint i s = .go () (advance (writePixel (cursorAddr s) (resolve s i) s)) := by simp [paint, h]

theorem paint_of_invalid {s : State} (i : Byte) (h : cursorValid s = false) :
    paint i s = .stop (halt .errRowOverflow s) := by simp [paint, h]

theorem paint_cases (i : Byte) (s : State) :
    (cursorValid s = true ∧ paint i s = .go () (advance (writePixel (cursorAddr s) (resolve s i) s))) ∨
    (cursorValid s = false ∧ paint i s = .stop (halt .errRowOverflow s)) := by
  cases h : cursorValid s
  · exact .inr ⟨rfl, paint_of_invalid i h⟩
  · exact .inl ⟨rfl, paint_of_valid i h⟩

theorem cursorValid_iff (s : State) : cursorValid s = true ↔ s.row < s.dim.toNat ∧ s.col.toNat < s.dim.toNat := by
  simp [cursorValid]

theorem cursorAddr_eq (s : State) : cursorAddr s = s.row * s.dim.toNat + s.col.toNat := rfl

/-- A cursor inside the buffer has an address inside it. -/
theorem cursorAddr_lt {s : State} (h : cursorValid s = true) : cursorAddr s < s.dim.toNat * s.dim.toNat := by
  obtain ⟨hr, hc⟩ := (cursorValid_iff s).1 h
  have : (s.row + 1) * s.dim.toNat ≤ s.dim.toNat * s.dim.toNat := Nat.mul_le_mul_right _ hr
  rw [cursorAddr_eq]
  linarith [Nat.succ_mul s.row s.dim.toNat]

/-- With the column inside the image, the cursor is valid exactly when its address is inside the buffer. -/
theorem cursorValid_iff_addr {s : State} (hc : s.col.toNat < s.dim.toNat) :
    cursorValid s = true ↔ cursorAddr s < s.dim.toNat * s.dim.toNat := by
  refine ⟨cursorAddr_lt, fun h => (cursorValid_iff s).2 ⟨?_, hc⟩⟩
  by_contra hr
  have : s.dim.toNat * s.dim.toNat ≤ s.row * s.dim.toNat := Nat.mul_le_mul_right _ (by omega)
  rw [cursorAddr_eq] at h
  omega

/-- R71: an advance moves to the next row-major address and keeps the column inside the image. -/
theorem advance_addr {s : State} (hc : s.col.toNat < s.dim.toNat) :
    cursorAddr (advance s) = cursorAddr s + 1 ∧ (advance s).col.toNat < s.dim.toNat := by
  have hd := s.dim.isLt
  simp only [cursorAddr_eq, advance_row, advance_col, advance_dim]
  by_cases h : s.col.toNat + 1 = s.dim.toNat
  · simp only [h, if_true, Nat.succ_mul]
    have h0 : (0#16).toNat = 0 := rfl
    rw [h0]
    omega
  · have : (s.col.toNat + 1) % 2 ^ 16 = s.col.toNat + 1 := Nat.mod_eq_of_lt (by omega)
    simp only [h, if_false, BitVec.toNat_ofNat, this]
    omega

/-- R72: the column after a jump, as a number. -/
theorem jump_col_toNat (dX dY : Byte) (s : State) :
    (jump dX dY s).col.toNat = if s.dim.toNat ≤ s.col.toNat + dX.toNat then 0 else s.col.toNat + dX.toNat := by
  have hd := s.dim.isLt
  rw [jump_col]
  split
  · rfl
  · rw [BitVec.toNat_ofNat, Nat.mod_eq_of_lt (by omega)]

/-- The row and column of an address, for a column inside the image. -/
theorem row_col_of_addr {s : State} (hc : s.col.toNat < s.dim.toNat) :
    s.row = cursorAddr s / s.dim.toNat ∧ s.col.toNat = cursorAddr s % s.dim.toNat := by
  have hd : 0 < s.dim.toNat := by omega
  rw [cursorAddr_eq]
  constructor
  · rw [Nat.add_comm, Nat.add_mul_div_right _ _ hd, Nat.div_eq_of_lt hc, Nat.zero_add]
  · rw [Nat.add_comm, Nat.add_mul_mod_self_right, Nat.mod_eq_of_lt hc]

@[simp] theorem paletteEntry_advance (s : State) (i : Byte) : paletteEntry (advance s) i = paletteEntry s i := by
  simp [paletteEntry]

@[simp] theorem paletteEntry_writePixel (a : Nat) (p : Pixel) (s : State) (i : Byte) :
    paletteEntry (writePixel a p s) i = paletteEntry s i := rfl

end Sys2Proof.Machine
end

