-- ==== Sys2Proof/Laws/PerInstr.lean ====
section
/-! SUPPORT. Statements made per instruction. Family RoundTrip: the header that encode writes for a well-formed
instruction decodes to that instruction (30_encoding.md R50, R52, R54). -/

namespace Sys2Proof.Laws.RoundTrip

open Sys2Proof

/-- Decoding the header of a well-formed instruction gives it back. -/
def Statement (i : Instr) : Prop :=
  i.wellFormed = true → decode (encode i).1 (encode i).2 = i

theorem esc0 : Statement .esc0 := fun _ => rfl

theorem endMarker : Statement .endMarker := fun _ => rfl

theorem delta : Statement .delta := fun _ => rfl

theorem abs (n : Byte) : Statement (.abs n) := by
  intro h
  have h3 : 3 ≤ n.toNat := by simpa [Instr.wellFormed] using h
  have ne : ∀ k : Byte, k.toNat < 3 → n ≠ k := fun k hk e => by rw [e] at h3; omega
  simp [decode, encode, ne 0#8 (by decide), ne 1#8 (by decide), ne 2#8 (by decide)]

theorem enc (count idx : Byte) : Statement (.enc count idx) := by
  intro h
  have h1 : 1 ≤ count.toNat := by simpa [Instr.wellFormed] using h
  have h0 : count ≠ 0#8 := fun e => by rw [e] at h1; exact absurd h1 (by decide)
  simp [decode, encode, h0]

end Sys2Proof.Laws.RoundTrip
end

