-- ==== Sys2Proof/Laws/Step.lean ====
section
/-! SUPPORT. What one step can do, said once: it is a chain of the primitive effects below, so a relation that is
reflexive, transitive and holds of each primitive effect holds of every step. -/

namespace Sys2Proof.Machine

open Sys2Proof

/-- The halts a unit step can take, each with what holds when it is taken (R94). -/
def haltAllowed (c : Status) (s : State) : Prop :=
  c = .endMarker ∨ c = .errInvalidEscape ∨ (c = .streamExhausted ∧ s.len ≤ s.pos) ∨
    (c = .errRowOverflow ∧ cursorValid s = false)

/-- A relation closed under every primitive effect of a unit step. -/
structure StepClosed (R : State → State → Prop) : Prop where
  refl : ∀ s, R s s
  trans : ∀ {s t u}, R s t → R t u → R s u
  latch : ∀ s, R s { s with unitPos := s.pos }
  byte : ∀ s, s.pos < s.len → R s { s with pos := s.pos + 1 }
  paint : ∀ i s, cursorValid s = true → R s (advance (writePixel (cursorAddr s) (resolve s i) s))
  jump : ∀ dX dY s, R s (jump dX dY s)
  halt : ∀ c s, haltAllowed c s → R s (halt c s)

/-- R relates a start state to whatever a flow ends in, if it ends in a state. -/
def Flow.Ends {α : Type} (R : State → State → Prop) (s : State) : Flow α → Prop
  | .go _ t => R s t
  | .stop t => R s t
  | .fault _ => True

theorem Flow.Ends.andThen {α β : Type} {R : State → State → Prop} (hR : StepClosed R) {s : State} {f : Flow α}
    {k : α → State → Flow β} (hf : f.Ends R s) (hk : ∀ a t, (k a t).Ends R t) : (f.andThen k).Ends R s := by
  cases f with
  | go a t =>
    have := hk a t
    simp only [Flow.andThen_go]
    revert this
    cases k a t <;> intro this
    · exact hR.trans hf this
    · exact hR.trans hf this
    · trivial
  | stop t => exact hf
  | fault e => trivial

theorem Flow.Ends.outcome {α : Type} {R : State → State → Prop} {s t : State} {f : Flow α} (hf : f.Ends R s)
    (h : f.outcome = .next t) : R s t := by
  cases f with
  | go a u => cases h; exact hf
  | stop u => cases h; exact hf
  | fault e => cases h

variable {R : State → State → Prop}

theorem nextByte_ends (hR : StepClosed R) (s : State) : (nextByte s).Ends R s := by
  rcases nextByte_cases s with ⟨h, e⟩ | ⟨h, v, -, e⟩ | ⟨-, -, e⟩ <;> rw [e]
  · exact hR.halt _ s (.inr (.inr (.inl ⟨rfl, h⟩)))
  · exact hR.byte s h
  · trivial

theorem paint_ends (hR : StepClosed R) (i : Byte) (s : State) : (paint i s).Ends R s := by
  rcases paint_cases i s with ⟨h, e⟩ | ⟨h, e⟩ <;> rw [e]
  · exact hR.paint i s h
  · exact hR.halt _ s (.inr (.inr (.inr ⟨rfl, h⟩)))

theorem paintRun_ends (hR : StepClosed R) (i : Byte) (n : Nat) (s : State) : (paintRun i n s).Ends R s := by
  induction n generalizing s with
  | zero => exact hR.refl s
  | succ n ih => exact (paint_ends hR i s).andThen hR fun _ t => ih t

theorem paintLiterals_ends (hR : StepClosed R) (n : Nat) (s : State) : (paintLiterals n s).Ends R s := by
  induction n generalizing s with
  | zero => exact hR.refl s
  | succ n ih =>
    exact (nextByte_ends hR s).andThen hR fun i t => (paint_ends hR i t).andThen hR fun _ u => ih u

theorem fetchDelta_ends (hR : StepClosed R) (s : State) : (fetchDelta s).Ends R s :=
  (nextByte_ends hR s).andThen hR fun _ t => (nextByte_ends hR t).andThen hR fun _ u => hR.refl u

theorem fetchHeader_ends (hR : StepClosed R) (s : State) : (fetchHeader s).Ends R s := by
  unfold fetchHeader
  split
  · rename_i h
    exact hR.halt _ s (.inr (.inr (.inl ⟨rfl, h⟩)))
  · have := (nextByte_ends hR { s with unitPos := s.pos }).andThen hR (k := fun b0 s1 =>
      (nextByte s1).andThen fun b1 s2 => Flow.go (b0, b1) s2) fun _ t =>
      (nextByte_ends hR t).andThen hR fun _ u => hR.refl u
    revert this
    generalize (nextByte { s with unitPos := s.pos }).andThen _ = f
    cases f with
    | go a t => exact hR.trans (hR.latch s)
    | stop t => exact hR.trans (hR.latch s)
    | fault e => exact id

/-- Every meaning is a chain of primitive effects. -/
theorem exec_ends (hR : StepClosed R) (i : Instr) {s t : State} (h : exec i s = .next t) : R s t := by
  cases i with
  | esc0 => exact Host.Outcome.next.inj h ▸ hR.halt _ s (.inr (.inl rfl))
  | endMarker => exact Host.Outcome.next.inj h ▸ hR.halt _ s (.inl rfl)
  | delta =>
    have hf : ((fetchDelta s).andThen fun d u => Flow.go () (jump d.1 d.2 u)).Ends R s :=
      (fetchDelta_ends hR s).andThen hR fun d u => hR.jump d.1 d.2 u
    exact hf.outcome h
  | abs n => exact (paintLiterals_ends hR _ s).outcome h
  | enc c idx => exact (paintRun_ends hR idx _ s).outcome h

/-- The one induction over a step: a closed relation holds of every step. -/
theorem step_ends (hR : StepClosed R) {s t : State} (h : step s = .next t) : R s t := by
  unfold step at h
  split at h
  · have hf := fetchHeader_ends hR s
    revert hf h
    cases fetchHeader s with
    | go b u => exact fun h hf => hR.trans hf (exec_ends hR _ h)
    | stop u => exact fun h hf => Host.Outcome.next.inj h ▸ hf
    | fault e => exact fun h => by cases h
  · exact Host.Outcome.next.inj h ▸ hR.refl s

/-- No meaning and no step ever refuses. -/
theorem exec_not_refused (i : Instr) (s : State) (r : Refusal) : exec i s ≠ .refused r := by
  have key : ∀ {α : Type} (f : Flow α), f.outcome ≠ .refused r := fun f => by cases f <;> simp
  cases i with
  | esc0 => simp [exec, execEsc0]
  | endMarker => simp [exec, execEndMarker]
  | delta => exact key _
  | abs n => exact key _
  | enc c idx => exact key _

end Sys2Proof.Machine
end

