-- ==== Sys2Proof/Tests/Slice0.lean ====
section
/-! SUPPORT. The model's own tests. Expected values are those of spec/95_test_vectors.md, named in each comment, or
of the rule named there; then one witness per statement with hypotheses, at boundary values. -/

namespace Sys2Proof.Tests

open Sys2Proof Sys2Proof.Machine

/-! ### Helpers -/

/-- The test palette of 95_test_vectors.md, as many entries of it as a test needs. -/
def testColor (i : Nat) : Color :=
  if i = 0 then ⟨0#8, 0#8, 0#8, 0#8⟩
  else ⟨BitVec.ofNat 8 i, BitVec.ofNat 8 i, BitVec.ofNat 8 i, 255#8⟩

/-- Reset, then dim, stream and the first ten palette entries loaded. -/
def loadedWith (dim : Word16) (bytes : List Byte) : State :=
  { State.reset with
    dimReg := dim
    streamLenReg := BitVec.ofNat 32 bytes.length
    stream := Memory.blank.writeList 0 bytes
    palette := Memory.blank.writeList 0 ((List.range 10).map testColor) }

/-- A session just started. -/
def started (dim : Word16) (bytes : List Byte) : State := startCommand (loadedWith dim bytes)

/-- The same session with cursor and read position further on. -/
def startedAt (dim : Word16) (bytes : List Byte) (row : Nat) (col : Word16) (pos : Nat) : State :=
  { started dim bytes with row := row, col := col, pos := pos, unitPos := pos }

/-- A session whose STREAM_LEN promises more bytes than were loaded. -/
def cutAfter (dim : Word16) (bytes : List Byte) (len : Nat) : State := { started dim bytes with len := len }

/-- The outcome is a next state that meets p. -/
def after (o : Host.Outcome State Fault Refusal) (p : State → Bool) : Bool :=
  match o with
  | .next t => p t
  | .fault _ => false
  | .refused _ => false

theorem after_next {o : Host.Outcome State Fault Refusal} {p : State → Bool} (h : after o p = true) :
    ∃ t, o = .next t ∧ p t = true := by
  cases o with
  | next t => exact ⟨t, rfl, h⟩
  | fault _ => cases h
  | refused _ => cases h

/-- The registers a vector's line gives. -/
def shows (st : Status) (pos unitPos row : Nat) (col : Word16) (t : State) : Bool :=
  decide (t.status = st ∧ t.pos = pos ∧ t.unitPos = unitPos ∧ t.row = row ∧ t.col = col)

/-- The index plane, row after row. -/
def indexPlane (t : State) : List (Option Byte) := (List.range (t.dim.toNat * t.dim.toNat)).map t.index.read

/-! ### Well-formedness (R54) -/

theorem test_enc_of_count_zero_refused : (Instr.enc 0#8 7#8).wellFormed = false := by decide

theorem test_abs_below_three_refused :
    (Instr.abs 0#8).wellFormed = false ∧ (Instr.abs 1#8).wellFormed = false ∧ (Instr.abs 2#8).wellFormed = false := by
  decide

theorem test_wellformed_accepted :
    (Instr.enc 1#8 0#8).wellFormed = true ∧ (Instr.abs 3#8).wellFormed = true ∧ Instr.delta.wellFormed = true ∧
      Instr.endMarker.wellFormed = true ∧ Instr.esc0.wellFormed = true := by
  decide

/-! ### Decoding: words written out bit by bit from R50 and R51 -/

theorem test_decode_esc0 : decode 0b00000000#8 0b00000000#8 = .esc0 := by decide

theorem test_decode_end : decode 0b00000000#8 0b00000001#8 = .endMarker := by decide

/-- R50 format D: `00 02 dX dY`. -/
theorem test_decode_delta :
    decodeUnit [0b00000000#8, 0b00000010#8, 0b11111111#8, 0b00000101#8, 0x77#8] =
      .whole .delta [255#8, 5#8] [0x77#8] := by
  decide

/-- V-ABS-2: `00 05 01 02 03`, odd count, no padding byte. -/
theorem test_decode_abs :
    decodeUnit [0b00000000#8, 0b00000101#8, 1#8, 2#8, 3#8, 0#8, 1#8] =
      .whole (.abs 5#8) [1#8, 2#8, 3#8] [0#8, 1#8] := by
  decide

/-- V-ENC-12: `01 00` is ENC 1, 0; and `80 81`, where a swap of the two bytes would show. -/
theorem test_decode_enc :
    decode 0b00000001#8 0b00000000#8 = .enc 1#8 0#8 ∧ decode 0b10000000#8 0b10000001#8 = .enc 128#8 129#8 := by
  decide

/-- R58: a cut unit, a lone byte, no byte. -/
theorem test_decode_cut :
    decodeUnit [0#8, 6#8, 1#8, 2#8] = .cut (.abs 6#8) [1#8, 2#8] ∧ decodeUnit [0#8] = .loneByte 0#8 ∧
      decodeUnit [] = .noByte := by
  decide

/-- R60: the five lines of the assembly syntax and what an assembler refuses. -/
theorem test_assemble :
    assemble (.enc 2#8 5#8) = some [2#8, 5#8] ∧ assemble (.abs [1#8, 2#8, 3#8]) = some [0#8, 5#8, 1#8, 2#8, 3#8] ∧
      assemble (.delta 1#8 2#8) = some [0#8, 2#8, 1#8, 2#8] ∧ assemble (.enc 0#8 5#8) = none ∧
      assemble (.abs []) = none := by
  decide

/-- opcode_table.json: b0 is bits 15:8 of the header word; a later word's bits count on from it. -/
theorem test_table_words :
    decodeTableWord 16 0x0000 = some .esc0 ∧ decodeTableWord 16 0x0001 = some .endMarker ∧
      decodeTableWord 16 0x0002 = some .delta ∧ decodeTableWord 16 0x0004 = some (.abs 4#8) ∧
      decodeTableWord 16 0x0205 = some (.enc 2#8 5#8) ∧
      tableBytes 32 0x01020002 = [0#8, 2#8, 1#8, 2#8] := by
  decide

/-- The placed instruction is the first one run after reset. -/
theorem test_withFetchWord :
    after (step (State.reset.withFetchWord 16 0x0000)) (shows .errInvalidEscape 2 0 0 0#16) = true ∧
      after (step (State.reset.withFetchWord 16 0x0001)) (shows .endMarker 2 0 0 0#16) = true ∧
      after (step (State.reset.withFetchWord 32 0x01020002)) (shows .running 4 0 2 1#16) = true ∧
      after (step (State.reset.withFetchWord 16 0x0004)) (shows .running 4 0 0 2#16) = true ∧
      after (step (State.reset.withFetchWord 16 0x0205)) (shows .running 2 0 0 2#16) = true := by
  decide +kernel

/-! ### Cursor (95_test_vectors.md 2.1) -/

/-- V-ADV-1, V-ADV-5. -/
theorem test_advance :
    shows .running 0 0 1 0#16 (advance (startedAt 3#16 [] 0 2#16 0)) = true ∧
      shows .running 0 0 1 0#16 (advance (startedAt 65535#16 [] 0 65534#16 0)) = true := by
  decide +kernel

/-- V-JUMP-4, V-JUMP-8, V-JUMP-9. -/
theorem test_jump :
    shows .running 0 0 0 0#16 (jump 255#8 0#8 (startedAt 4#16 [] 0 2#16 0)) = true ∧
      shows .running 0 0 0 0#16 (jump 100#8 0#8 (startedAt 65535#16 [] 0 65500#16 0)) = true ∧
      shows .running 0 0 0 65534#16 (jump 34#8 0#8 (startedAt 65535#16 [] 0 65500#16 0)) = true := by
  decide +kernel

/-- V-ADDR-1, V-ADDR-2. -/
theorem test_address :
    cursorAddr (startedAt 4#16 [] 2 1#16 0) = 9 ∧
      cursorAddr (startedAt 65535#16 [] 65534 65534#16 0) = 4294836224 := by
  decide +kernel

/-- V-PAINT-1 and V-PAINT-4. -/
theorem test_paint :
    (paint 5#8 (startedAt 2#16 [] 0 1#16 0)).outcome = .next
        { startedAt 2#16 [] 1 0#16 0 with
          rgb := ⟨some ⟨0#8, 0#8, 0#8⟩, [(1, ⟨5#8, 5#8, 5#8⟩)]⟩, alpha := ⟨some 0#8, [(1, 255#8)]⟩,
          index := ⟨some 0#8, [(1, 5#8)]⟩ } ∧
      (paint 9#8 (startedAt 2#16 [] 5 0#16 0)).outcome =
        .next { startedAt 2#16 [] 5 0#16 0 with status := .errRowOverflow, phase := .halted } := by
  exact ⟨rfl, rfl⟩

/-! ### Units (95_test_vectors.md 2.3 to 2.7) -/

/-- V-ENC-3, first unit: a run across a row boundary. -/
theorem test_enc_crosses_row :
    after (step (started 3#16 [5#8, 7#8, 0#8, 1#8])) (fun t => shows .running 2 0 1 2#16 t &&
      indexPlane t == ([7, 7, 7, 7, 7, 0, 0, 0, 0] : List Nat).map (fun n => some (BitVec.ofNat 8 n))) = true := by
  decide +kernel

/-- V-ENC-6: the fifth pixel of a four-cell image. -/
theorem test_enc_overflow :
    after (step (started 2#16 [5#8, 9#8])) (fun t => shows .errRowOverflow 2 0 2 0#16 t &&
      indexPlane t == [some 9#8, some 9#8, some 9#8, some 9#8]) = true := by
  decide +kernel

/-- V-ABS-3, first unit. -/
theorem test_abs_crosses_row :
    after (step (started 2#16 [0#8, 5#8, 1#8, 2#8, 3#8, 0#8, 1#8])) (fun t => shows .running 5 0 1 1#16 t &&
      indexPlane t == [some 1#8, some 2#8, some 3#8, some 0#8]) = true := by
  decide +kernel

/-- V-ABS-8, second unit: literal 0 painted at (1, 1), literal 1 fetched and refused, pos = 6. -/
theorem test_abs_overflow :
    after (step (startedAt 2#16 [3#8, 9#8, 0#8, 5#8, 1#8, 2#8, 3#8] 1 1#16 2)) (fun t =>
      shows .errRowOverflow 6 2 2 0#16 t && t.index.read 3 == some 1#8) = true := by
  decide +kernel

/-- P3, step 2: clamp, the row gets dY. -/
theorem test_delta_clamps :
    after (step (startedAt 4#16 [3#8, 1#8, 0#8, 2#8, 1#8, 1#8] 0 3#16 2)) (shows .running 6 2 1 0#16) = true := by
  decide +kernel

/-- V-DELTA-11: dY missing, no jump at all. -/
theorem test_delta_cut :
    after (step (started 2#16 [0#8, 2#8, 1#8])) (shows .streamExhausted 3 0 0 0#16) = true := by
  decide +kernel

/-- V-ENC-7, second unit: END with row = dim. -/
theorem test_end :
    after (step (startedAt 2#16 [4#8, 9#8, 0#8, 1#8] 2 0#16 2)) (shows .endMarker 4 2 2 0#16) = true := by
  decide +kernel

/-- V-ESC0-3, second unit. -/
theorem test_esc0 :
    after (step (startedAt 2#16 [4#8, 9#8, 0#8, 0#8] 2 0#16 2)) (shows .errInvalidEscape 4 2 2 0#16) = true := by
  decide +kernel

/-- V-END-2 and V-END-4. -/
theorem test_exhausted :
    after (step (started 2#16 [])) (shows .streamExhausted 0 0 0 0#16) = true ∧
      after (step (started 2#16 [0#8])) (shows .streamExhausted 1 0 0 0#16) = true := by
  decide +kernel

/-- P1 at the micro-step granularity, micro-step 2: ENC recognised, rem 2, idx_latch 5. -/
theorem test_micro_dispatch :
    after (microStep { started 2#16 [2#8, 5#8] with pos := 1, phase := .fetchB1 2#8 }) (fun t =>
      decide (t.pos = 2 ∧ t.rem = 2#8 ∧ t.idxLatch = 5#8 ∧ t.phase = .encPaint)) = true := by
  decide +kernel

/-! ### Host and loader (95_test_vectors.md 2.9) -/

/-- A file of 1048 bytes with these dim bytes and this entry 0. -/
def fileOf (d0 d1 : Byte) (entry : List Byte) : List Byte :=
  List.replicate 4 0#8 ++ [d0, d1] ++ List.replicate 18 0#8 ++ entry ++ List.replicate 1020 0#8

/-- V-LOAD-2, V-LOAD-4, V-LOAD-8. -/
theorem test_load :
    (parseFile Config.documentLayout (fileOf 0#8 1#8 [0x1E#8, 0x14#8, 0x0A#8, 0xFF#8])).map (fun im =>
        (im.dim.toNat, im.palette.head?, im.stream)) =
      some (256, some ⟨10#8, 20#8, 30#8, 255#8⟩, []) := by
  decide +kernel

/-- V-LOAD-7. -/
theorem test_load_truncated : parseFile Config.documentLayout (List.replicate 1047 0#8) = none := by decide +kernel

/-- R143: the loader does not let a file with dim = 0 through. -/
theorem test_load_dim_zero :
    loadFile Config.defaultWidths Config.documentLayout (fileOf 0#8 0#8 [0#8, 0#8, 0#8, 0#8]) State.reset =
      .outsideContract := by
  decide +kernel

/-- R16: END_MARKER reads 2 and STREAM_EXHAUSTED 3 through STATUS at 0x04. -/
theorem test_status_codes :
    hostReadAt Config.defaultWidths 0x04 (halt .endMarker State.reset) = some 2#32 ∧
      hostReadAt Config.defaultWidths 0x04 (halt .streamExhausted State.reset) = some 3#32 := by
  decide

/-- V-START-1. -/
theorem test_start_with_dim_zero :
    hostWrite Config.defaultWidths .ctrl 1#32 (loadedWith 0#16 [0#8, 1#8]) = loadedWith 0#16 [0#8, 1#8] := by
  decide +kernel

/-- R17: the map's offsets. -/
theorem test_register_offsets :
    Reg.atOffset 0x00 = some .ctrl ∧ Reg.atOffset 0x0C = some .streamLen ∧ Reg.atOffset 0x1C = some .curCol ∧
      Reg.atOffset 0x20 = none := by
  decide

/-! ### Witnesses: each statement with hypotheses has states and operands that meet them together -/

theorem witness_UnitRoundTrip :
    ((Instr.abs 255#8).wellFormed = true ∧ (List.replicate 253 7#8 : List Byte).length = (Instr.abs 255#8).operandCount) ∧
      ((Instr.abs 3#8).wellFormed = true ∧ ([7#8] : List Byte).length = (Instr.abs 3#8).operandCount) ∧
      ((Instr.enc 1#8 0#8).wellFormed = true ∧ ([] : List Byte).length = (Instr.enc 1#8 0#8).operandCount) := by
  decide +kernel

theorem witness_DecodedUnitSpellsItsBytes :
    decodeUnit [0#8, 3#8, 42#8, 9#8] = .whole (.abs 3#8) [42#8] [9#8] := by decide

theorem witness_DispatchOnHeader :
    (1#8 : Byte).toNat ≠ 0 ∧ (0#8 : Byte).toNat = 0 ∧ (1#8 : Byte).toNat = 1 ∧ (2#8 : Byte).toNat = 2 ∧
      3 ≤ (3#8 : Byte).toNat ∧ 3 ≤ (255#8 : Byte).toNat := by
  decide

theorem witness_UnitLengthFromHeader :
    (decode 0#8 3#8).unitLength ≤ ([0#8, 3#8, 1#8] : List Byte).length ∧
      ([0#8, 3#8] : List Byte).length < (decode 0#8 3#8).unitLength := by
  decide

theorem witness_AssembledLinesDecode :
    (1#8 : Byte) ≠ 0#8 ∧ 1 ≤ ([7#8] : List Byte).length ∧ ([7#8] : List Byte).length ≤ 253 ∧
      1 ≤ (List.replicate 253 7#8 : List Byte).length ∧ (List.replicate 253 7#8 : List Byte).length ≤ 253 := by
  decide +kernel

theorem witness_StepRunsDecodedUnit :
    (started 2#16 [2#8, 5#8]).status = .running ∧ (Instr.enc 2#8 5#8).wellFormed = true ∧
      bytesReady (started 2#16 [2#8, 5#8]) [(encode (.enc 2#8 5#8)).1, (encode (.enc 2#8 5#8)).2] := by
  decide +kernel

theorem witness_StepAtEndOfStream :
    ((started 2#16 []).status = .running ∧ (started 2#16 []).len ≤ (started 2#16 []).pos) ∧
      ((started 2#16 [0#8]).status = .running ∧ (started 2#16 [0#8]).pos + 1 = (started 2#16 [0#8]).len ∧
        bytesReady (started 2#16 [0#8]) [0#8]) := by
  decide +kernel

theorem witness_StepExactlyWhileRunning :
    State.reset.status ≠ .running ∧ (started 2#16 [0#8, 1#8]).status = .running ∧
      ∃ t, step (started 2#16 [0#8, 1#8]) = .next t :=
  ⟨by decide, by decide +kernel, let ⟨t, h, _⟩ := after_next (p := fun _ => true) (o := step (started 2#16 [0#8, 1#8])) (by decide +kernel); ⟨t, h⟩⟩

theorem witness_NextByteConsumesOne :
    (started 2#16 []).len ≤ (started 2#16 []).pos ∧ bytesReady (started 2#16 [7#8]) [7#8] := by decide +kernel

theorem witness_ControlIsStraightLine :
    (started 2#16 [0#8, 3#8, 5#8]).status = .running ∧ bytesReady (started 2#16 [0#8, 3#8, 5#8]) [0#8, 3#8] ∧
      ∃ t, step (started 2#16 [0#8, 3#8, 5#8]) = .next t ∧ decide (t.status = .running) = true :=
  ⟨by decide +kernel, by decide +kernel, after_next (by decide +kernel)⟩

theorem witness_AdvanceWrapsAtDim :
    ((startedAt 1#16 [] 5 0#16 0).col.toNat < (startedAt 1#16 [] 5 0#16 0).dim.toNat ∧
      (startedAt 1#16 [] 5 0#16 0).col.toNat + 1 = (startedAt 1#16 [] 5 0#16 0).dim.toNat) ∧
      ((startedAt 2#16 [] 0 0#16 0).col.toNat < (startedAt 2#16 [] 0 0#16 0).dim.toNat ∧
        (startedAt 2#16 [] 0 0#16 0).col.toNat + 1 ≠ (startedAt 2#16 [] 0 0#16 0).dim.toNat) := by
  decide +kernel

theorem witness_JumpAddsThenClamps :
    (startedAt 4#16 [] 0 2#16 0).dim.toNat ≤ (startedAt 4#16 [] 0 2#16 0).col.toNat + (2#8 : Byte).toNat ∧
      (startedAt 4#16 [] 0 2#16 0).col.toNat + (1#8 : Byte).toNat < (startedAt 4#16 [] 0 2#16 0).dim.toNat := by
  decide +kernel

/-- The last cell of the largest image, for every premise of the statement. -/
theorem witness_AddressGeneratorExact :
    (startedAt 65535#16 [] 65534 65534#16 0).col.toNat < (startedAt 65535#16 [] 65534 65534#16 0).dim.toNat ∧
      cursorValid (startedAt 65535#16 [] 65534 65534#16 0) = true ∧ 16 ≤ 16 := by
  decide +kernel

theorem witness_PaintChecksWritesAdvances :
    cursorValid (startedAt 2#16 [] 1 1#16 0) = true ∧ cursorValid (startedAt 2#16 [] 2 0#16 0) = false := by
  decide +kernel

theorem witness_LoadedEntryResolves :
    (∃ t, hostLoadPalette 255#8 ⟨1#8, 2#8, 3#8, 4#8⟩ State.reset = some t) ∧ (0#8 : Byte) ≠ 255#8 :=
  ⟨⟨_, rfl⟩, by decide⟩

theorem witness_PrefillGivesBackground : 0 < (started 1#16 []).dim.toNat := by decide +kernel

/-- A run that ends exactly at the last cell, an empty rest and one pixel more (T6). -/
theorem witness_EncPaintsRun :
    runFits (started 2#16 []) (4#8 : Byte).toNat ∧ runFits (startedAt 2#16 [] 2 0#16 0) (0#8 : Byte).toNat ∧
      (1 ≤ (5#8 : Byte).toNat ∧ runOverflows (started 2#16 []) (5#8 : Byte).toNat) ∧
      (1 ≤ (1#8 : Byte).toNat ∧ runOverflows (startedAt 2#16 [] 2 0#16 0) (1#8 : Byte).toNat) := by
  decide +kernel

theorem witness_EncFrame : ∃ t, exec (.enc 5#8 9#8) (started 2#16 []) = .next t ∧ true = true :=
  after_next (p := fun _ => true) (by decide +kernel)

/-- Three clauses: exact fit; the literal after the last cell; the stream cut after one literal and right after the
header. -/
theorem witness_AbsPaintsLiterals :
    (([5#8] : List Byte).length = (3#8 : Byte).toNat - 2 ∧ bytesReady (startedAt 1#16 [5#8] 0 0#16 0) [5#8] ∧
      runFits (startedAt 1#16 [5#8] 0 0#16 0) 1) ∧
    (([5#8, 6#8] : List Byte).length ≤ (4#8 : Byte).toNat - 2 ∧ bytesReady (startedAt 1#16 [5#8, 6#8] 0 0#16 0) [5#8, 6#8] ∧
      (startedAt 1#16 [5#8, 6#8] 0 0#16 0).col.toNat < (startedAt 1#16 [5#8, 6#8] 0 0#16 0).dim.toNat ∧
      ([5#8, 6#8] : List Byte).length = cellsLeft (startedAt 1#16 [5#8, 6#8] 0 0#16 0) + 1) ∧
    (([5#8] : List Byte).length < (4#8 : Byte).toNat - 2 ∧ bytesReady (startedAt 1#16 [5#8] 0 0#16 0) [5#8] ∧
      (startedAt 1#16 [5#8] 0 0#16 0).pos + 1 = (startedAt 1#16 [5#8] 0 0#16 0).len ∧
      runFits (startedAt 1#16 [5#8] 0 0#16 0) 1) ∧
    (([] : List Byte).length < (3#8 : Byte).toNat - 2 ∧ bytesReady (startedAt 2#16 [] 2 0#16 0) [] ∧
      (startedAt 2#16 [] 2 0#16 0).pos + 0 = (startedAt 2#16 [] 2 0#16 0).len) := by
  decide +kernel

theorem witness_AbsFrame : ∃ t, exec (.abs 4#8) (started 1#16 [5#8, 6#8]) = .next t ∧ true = true :=
  after_next (p := fun _ => true) (by decide +kernel)

theorem witness_DeltaJumpsOrExhausts :
    bytesReady (started 2#16 [255#8, 255#8]) [255#8, 255#8] ∧ (started 2#16 []).len ≤ (started 2#16 []).pos ∧
      (bytesReady (started 2#16 [1#8]) [1#8] ∧ (started 2#16 [1#8]).pos + 1 = (started 2#16 [1#8]).len) := by
  decide +kernel

theorem witness_DeltaFrame : ∃ t, exec .delta (started 2#16 [1#8, 2#8]) = .next t ∧ true = true :=
  after_next (p := fun _ => true) (by decide +kernel)

theorem witness_DeltaZeroOnlyMovesOn :
    (started 2#16 [0#8, 2#8, 0#8, 0#8]).status = .running ∧
      (started 2#16 [0#8, 2#8, 0#8, 0#8]).col.toNat < (started 2#16 [0#8, 2#8, 0#8, 0#8]).dim.toNat ∧
      bytesReady (started 2#16 [0#8, 2#8, 0#8, 0#8]) [0x00#8, 0x02#8, 0x00#8, 0x00#8] := by
  decide +kernel

theorem witness_EndHaltsSuccessfully :
    (started 2#16 [0#8, 1#8]).status = .running ∧ bytesReady (started 2#16 [0#8, 1#8]) [0x00#8, 0x01#8] := by
  decide +kernel

theorem witness_EscZeroRaisesInvalidEscape :
    (started 2#16 [0#8, 0#8]).status = .running ∧ bytesReady (started 2#16 [0#8, 0#8]) [0x00#8, 0x00#8] := by
  decide +kernel

/-- Each outcome a unit can end in, reached. -/
theorem witness_OutcomesPerUnit :
    after (exec (.enc 4#8 9#8) (started 2#16 [])) (fun t => decide (t.status = .running)) = true ∧
      after (exec (.enc 5#8 9#8) (started 2#16 [])) (fun t => decide (t.status = .errRowOverflow)) = true ∧
      after (exec (.abs 3#8) (started 2#16 [5#8])) (fun t => decide (t.status = .running)) = true ∧
      after (exec (.abs 4#8) (started 1#16 [5#8, 6#8])) (fun t => decide (t.status = .errRowOverflow)) = true ∧
      after (exec (.abs 4#8) (started 2#16 [5#8])) (fun t => decide (t.status = .streamExhausted)) = true ∧
      after (exec .delta (started 2#16 [1#8, 1#8])) (fun t => decide (t.status = .running)) = true ∧
      after (exec .delta (started 2#16 [1#8])) (fun t => decide (t.status = .streamExhausted)) = true ∧
      after (exec .endMarker (started 2#16 [])) (fun t => decide (t.status = .endMarker)) = true ∧
      after (exec .esc0 (started 2#16 [])) (fun t => decide (t.status = .errInvalidEscape)) = true := by
  decide +kernel

/-- Each of the five disjuncts reached by a step of a running session. -/
theorem witness_SessionEndsInOneOfFourWays :
    (started 2#16 [4#8, 9#8]).status = .running ∧
      after (step (started 2#16 [4#8, 9#8])) (fun t => decide (t.status = .running)) = true ∧
      after (step (started 2#16 [0#8, 1#8])) (fun t => decide (t.status = .endMarker)) = true ∧
      after (step (started 2#16 [])) (fun t => decide (t.status = .streamExhausted)) = true ∧
      after (step (started 2#16 [0#8, 0#8])) (fun t => decide (t.status = .errInvalidEscape)) = true ∧
      after (step (started 2#16 [5#8, 9#8])) (fun t => decide (t.status = .errRowOverflow)) = true := by
  decide +kernel

theorem witness_HaltIsTerminal : (halt .errRowOverflow (started 2#16 [])).status.isHalt = true := by decide +kernel

/-- The first byte missing (for next_byte, the header and dX), then b1, dY and a literal; the ABS run cut at once and
after a run that fits exactly. -/
theorem witness_UnloadedByteFaults :
    step (cutAfter 2#16 [] 1) = .fault (.streamNotLoaded 0) ∧
    ((cutAfter 2#16 [] 1).status = .running ∧ (cutAfter 2#16 [] 1).pos < (cutAfter 2#16 [] 1).len ∧
      (cutAfter 2#16 [] 1).stream.read (cutAfter 2#16 [] 1).pos = none) ∧
    ((cutAfter 2#16 [0#8] 2).status = .running ∧ bytesReady (cutAfter 2#16 [0#8] 2) [0#8] ∧
      (cutAfter 2#16 [0#8] 2).pos + 1 < (cutAfter 2#16 [0#8] 2).len ∧
      (cutAfter 2#16 [0#8] 2).stream.read ((cutAfter 2#16 [0#8] 2).pos + 1) = none) ∧
    (([] : List Byte).length < (3#8 : Byte).toNat - 2 ∧ bytesReady (cutAfter 2#16 [] 1) [] ∧
      (cutAfter 2#16 [] 1).pos + 0 < (cutAfter 2#16 [] 1).len) ∧
    (([5#8] : List Byte).length < (4#8 : Byte).toNat - 2 ∧ bytesReady (cutAfter 1#16 [5#8] 2) [5#8] ∧
      (cutAfter 1#16 [5#8] 2).pos + 1 < (cutAfter 1#16 [5#8] 2).len ∧
      (cutAfter 1#16 [5#8] 2).stream.read ((cutAfter 1#16 [5#8] 2).pos + 1) = none ∧
      runFits (cutAfter 1#16 [5#8] 2) 1) :=
  ⟨rfl, by decide +kernel⟩

theorem streamLoaded_small : streamLoaded (started 2#16 [2#8, 5#8, 0#8, 1#8]) := by
  unfold streamLoaded; decide +kernel

theorem witness_LoadedStreamAlwaysSteps : streamLoaded (started 2#16 [2#8, 5#8, 0#8, 1#8]) := streamLoaded_small

theorem witness_StepKeepsInvariant :
    Inv (started 2#16 [2#8, 5#8]) ∧ ∃ t, step (started 2#16 [2#8, 5#8]) = .next t ∧ true = true :=
  ⟨by decide +kernel, after_next (p := fun _ => true) (by decide +kernel)⟩

theorem loaded_of {r : LoadResult} (h : (match r with | .loaded _ => true | .truncatedHeader => false | .outsideContract => false) = true) :
    ∃ t, r = .loaded t := by
  cases r with
  | loaded t => exact ⟨t, rfl⟩
  | truncatedHeader => cases h
  | outsideContract => cases h

theorem witness_HostMovesKeepInvariant :
    Inv State.reset ∧ (∃ t, hostLoadStream 0 [0#8, 1#8] State.reset = some t) ∧
      (∃ t, hostLoadPalette 0#8 (testColor 0) State.reset = some t) ∧
      (∃ t, loadFile Config.defaultWidths Config.documentLayout (fileOf 2#8 0#8 [0#8, 0#8, 0#8, 0#8]) State.reset = .loaded t) :=
  ⟨by decide, ⟨_, rfl⟩, ⟨_, rfl⟩, loaded_of (by decide +kernel)⟩

theorem witness_PlanesStayImageOfPalette :
    planesMatchPalette State.reset ∧ ∃ t, step State.reset = .next t := by
  refine ⟨fun a => ⟨?_, ?_⟩, ⟨_, rfl⟩⟩ <;> simp [State.reset]

theorem witness_RowAndPosNeverDecrease :
    (∃ t, step (started 2#16 [2#8, 5#8]) = .next t ∧ true = true) ∧
      (started 2#16 [2#8, 5#8]).pos ≤ (started 2#16 [2#8, 5#8]).len :=
  ⟨after_next (p := fun _ => true) (by decide +kernel), by decide +kernel⟩

theorem witness_EverySessionHalts :
    (started 2#16 [2#8, 5#8, 0#8, 1#8]).status = .running ∧ streamLoaded (started 2#16 [2#8, 5#8, 0#8, 1#8]) ∧
      ((started 2#16 [2#8, 5#8, 0#8, 1#8]).len - (started 2#16 [2#8, 5#8, 0#8, 1#8]).pos) / 2 + 1 ≤ 3 :=
  ⟨by decide +kernel, streamLoaded_small, by decide +kernel⟩

theorem witness_StepKeepsConfiguration : ∃ t, step (started 2#16 [5#8, 9#8]) = .next t ∧ true = true :=
  after_next (p := fun _ => true) (by decide +kernel)

theorem witness_NoWriteOutsideBuffer :
    (∃ t, step (started 2#16 [5#8, 9#8]) = .next t ∧ true = true) ∧
      (started 2#16 [5#8, 9#8]).dim.toNat * (started 2#16 [5#8, 9#8]).dim.toNat ≤ 4 ∧
      State.reset.status ≠ .running ∧ ∃ t, step State.reset = .next t :=
  ⟨after_next (p := fun _ => true) (by decide +kernel), by decide +kernel, by decide, ⟨_, rfl⟩⟩

/-- Bytes, and palette entries with no fill. -/
theorem witness_EqualReadsEqualMemories :
    ((⟨some 0#8, [(3, 7#8)]⟩ : Memory Byte).wf ∧ ∀ a, (⟨some 0#8, [(3, 7#8)]⟩ : Memory Byte).read a =
      ((Memory.filled 0#8).write 3 7#8).read a) ∧
    ((⟨none, [(0, testColor 0)]⟩ : Memory Color).wf ∧ ∀ a, (⟨none, [(0, testColor 0)]⟩ : Memory Color).read a =
      (Memory.blank.write 0 (testColor 0)).read a) :=
  ⟨⟨by decide, fun _ => rfl⟩, ⟨by decide, fun _ => rfl⟩⟩

theorem witness_MicroStepsMakeUnitStep :
    (started 2#16 [2#8, 5#8]).status = .running ∧ (started 2#16 [2#8, 5#8]).phase = .fetchB0 := by decide +kernel

theorem witness_SaturatingRowIsExact : 16 ≤ 16 ∧ 16 ≤ Config.defaultWidths.rowW := by decide

theorem witness_PlanesInfluenceNothing :
    (∃ t, step (started 2#16 [2#8, 5#8]) = .next t ∧ true = true) ∧
      step { started 2#16 [] with len := 1 } = .fault (.streamNotLoaded 0) :=
  ⟨after_next (p := fun _ => true) (by decide +kernel), rfl⟩

/-- V-END-3: after END even `00 00` is never fetched; the other memory ends with it. -/
theorem witness_UnconsumedBytesUnread :
    ∃ t, step (started 2#16 [0#8, 1#8, 0#8, 0#8]) = .next t ∧
      ∀ a, (started 2#16 [0#8, 1#8, 0#8, 0#8]).pos ≤ a → a < t.pos →
        (Memory.blank.writeList 0 [0#8, 1#8]).read a = (started 2#16 [0#8, 1#8, 0#8, 0#8]).stream.read a := by
  refine ⟨_, rfl, ?_⟩
  show ∀ a, 0 ≤ a → a < 2 → _
  intro a _ h
  obtain rfl | rfl : a = 0 ∨ a = 1 := by omega
  · rfl
  · rfl

theorem witness_StartCommandBeginsSession :
    (loadedWith 1#16 []).status ≠ .running ∧ 1 ≤ (loadedWith 1#16 []).dimReg.toNat ∧
      (1#32 : Word32).getLsbD 0 = true ∧ 0 < (loadedWith 1#16 []).dimReg.toNat := by
  decide +kernel

theorem witness_IgnoredHostWrites :
    State.reset.dimReg = 0#16 ∧ (started 2#16 []).status = .running := by decide +kernel

theorem witness_RegisterMapReadsAndWrites :
    (⟨16, 0⟩ : Config.Widths).ok ∧ Config.defaultWidths.ok ∧
      (State.reset.status ≠ .running ∧ State.reset.status = .idle) ∧
      (∀ st : Status, st = .endMarker ∨ st = .streamExhausted ∨ st = .errInvalidEscape ∨ st = .errRowOverflow →
        (halt st State.reset).status ≠ .running ∧ (halt st State.reset).status = st) ∧
      State.reset.pos < 2 ^ 32 ∧ State.reset.unitPos < 2 ^ 32 ∧
      (0xFFFFFFFE#32 : Word32).getLsbD 0 = false ∧ (0xFFFFFFFF#32 : Word32).getLsbD 0 = true ∧
      (Reg.status ≠ .ctrl ∧ Reg.status ≠ .dim ∧ Reg.status ≠ .streamLen) := by
  refine ⟨by decide, by decide, by decide, ?_, by decide⟩
  rintro st (rfl | rfl | rfl | rfl) <;> decide

theorem witness_RunningHidesAllButStatus :
    (started 2#16 []).status = .running ∧ Reg.pos ≠ .status := by decide +kernel

theorem witness_EndMarkerAloneLeavesBackground :
    (loadedWith 1#16 [0#8, 1#8]).status ≠ .running ∧ 1 ≤ (loadedWith 1#16 [0#8, 1#8]).dimReg.toNat ∧
      (loadedWith 1#16 [0#8, 1#8]).streamLenReg.toNat = 2 ∧
      (loadedWith 1#16 [0#8, 1#8]).stream.holds 0 [0x00#8, 0x01#8] = true := by
  decide +kernel

theorem witness_LoaderParsesHeader :
    (List.replicate 1047 0#8 : List Byte).length < 1048 ∧ 1048 ≤ (List.replicate 1048 0#8 : List Byte).length ∧
      255 < 256 := by
  decide +kernel

theorem witness_LoadedFileMeetsLaunchPremises :
    Config.defaultWidths.ok ∧
      ∃ t, loadFile Config.defaultWidths Config.documentLayout (fileOf 1#8 0#8 [0#8, 0#8, 0#8, 0#8]) State.reset =
        .loaded t ∧ 1 ≤ t.dimReg.toNat := by
  refine ⟨by decide, ?_⟩
  have h : (match loadFile Config.defaultWidths Config.documentLayout (fileOf 1#8 0#8 [0#8, 0#8, 0#8, 0#8]) State.reset with
      | .loaded t => decide (1 ≤ t.dimReg.toNat)
      | .truncatedHeader => false
      | .outsideContract => false) = true := by decide +kernel
  revert h
  cases loadFile Config.defaultWidths Config.documentLayout (fileOf 1#8 0#8 [0#8, 0#8, 0#8, 0#8]) State.reset with
  | loaded t => exact fun h => ⟨t, rfl, of_decide_eq_true h⟩
  | truncatedHeader => exact fun h => absurd h (by decide)
  | outsideContract => exact fun h => absurd h (by decide)

/-- A short file; a file whose dim is 0, a RUNNING block, a stream of one byte where POS_W is 0; a file that loads,
with its last entry and an empty stream. -/
theorem witness_LoadFilePlacesImage :
    (⟨16, 0⟩ : Config.Widths).ok ∧ Config.defaultWidths.ok ∧
      (List.replicate 1047 0#8 : List Byte).length < 1048 ∧
      (1048 ≤ (fileOf 0#8 0#8 [0#8, 0#8, 0#8, 0#8]).length ∧ fileByte (fileOf 0#8 0#8 [0#8, 0#8, 0#8, 0#8]) 4 = 0#8 ∧
        fileByte (fileOf 0#8 0#8 [0#8, 0#8, 0#8, 0#8]) 5 = 0#8) ∧
      (started 2#16 []).status = .running ∧
      1048 + 2 ^ (⟨16, 0⟩ : Config.Widths).posW ≤ (fileOf 0#8 1#8 [0#8, 0#8, 0#8, 0#8] ++ [7#8]).length ∧
      (1048 ≤ (fileOf 0#8 1#8 [0#8, 0#8, 0#8, 0#8]).length ∧
        (fileByte (fileOf 0#8 1#8 [0#8, 0#8, 0#8, 0#8]) 4 ≠ 0#8 ∨ fileByte (fileOf 0#8 1#8 [0#8, 0#8, 0#8, 0#8]) 5 ≠ 0#8) ∧
        State.reset.status ≠ .running ∧
        (fileOf 0#8 1#8 [0#8, 0#8, 0#8, 0#8]).length < 1048 + 2 ^ (⟨16, 0⟩ : Config.Widths).posW) := by
  decide +kernel

theorem witness_OffsetAccesses : (∀ k, k < 8 → 0x20 ≠ 4 * k) ∧ ∀ k, k < 8 → 0x05 ≠ 4 * k := by decide

end Sys2Proof.Tests
end

section
/-! SUPPORT. The decoder's equations, one per condition of 30_encoding.md R52, and the dispatch on the header's byte
values assembled from them. -/

namespace Sys2Proof

@[simp] theorem decode_zero_zero : decode 0#8 0#8 = .esc0 := rfl

@[simp] theorem decode_zero_one : decode 0#8 1#8 = .endMarker := rfl

@[simp] theorem decode_zero_two : decode 0#8 2#8 = .delta := rfl

theorem decode_of_ne_zero {b0 : Byte} (b1 : Byte) (h : b0 ≠ 0#8) : decode b0 b1 = .enc b0 b1 :=
  if_pos h

theorem decode_zero_of_three_le {b1 : Byte} (h : 3 ≤ b1.toNat) : decode 0#8 b1 = .abs b1 :=
  Laws.RoundTrip.abs b1 (decide_eq_true h)

/-- Settles O3: each condition on the byte values names the header bytes, or the branch, of one decoder equation. -/
theorem dispatchOnHeader : Obligations.DispatchOnHeader := by
  unfold Obligations.DispatchOnHeader
  intro b0 b1
  have byte_eq {b c : Byte} : b.toNat = c.toNat → b = c := BitVec.eq_of_toNat_eq
  refine ⟨fun h0 => ?enc, fun h0 h1 => ?esc0, fun h0 h1 => ?endMarker, fun h0 h1 => ?delta, fun h0 h1 => ?abs⟩
  case enc => exact decode_of_ne_zero b1 fun h => h0 (congrArg BitVec.toNat h)
  all_goals obtain rfl : b0 = 0#8 := byte_eq h0
  case esc0 => obtain rfl : b1 = 0#8 := byte_eq h1; exact decode_zero_zero
  case endMarker => obtain rfl : b1 = 1#8 := byte_eq h1; exact decode_zero_one
  case delta => obtain rfl : b1 = 2#8 := byte_eq h1; exact decode_zero_two
  case abs => exact ⟨decode_zero_of_three_le h1, rfl⟩

end Sys2Proof
end

section
/-! SUPPORT. The cursor's two moves as whole states (40_cursor_ops.md R71, R72), the width of the linear address and
the bounds check under a saturating row (R74, 10_state.md R12), and the statements of the family assembled from them. -/

namespace Sys2Proof.Machine

/-- R72: a jump changes the row and the column only. -/
theorem jump_frame (dX dY : Byte) (s : State) :
    jump dX dY s = { s with row := s.row + dY.toNat, col := (jump dX dY s).col } := by
  unfold jump; split <;> rfl

/-- R71: in the last column an advance goes to the start of the next row. -/
theorem advance_of_last_col {s : State} (h : s.col.toNat + 1 = s.dim.toNat) :
    advance s = { s with col := 0#16, row := s.row + 1 } :=
  if_pos h

/-- R71: before the last column an advance changes the column only. -/
theorem advance_frame_of_inner_col {s : State} (h : s.col.toNat + 1 ≠ s.dim.toNat) :
    advance s = { s with col := (advance s).col } := by
  rw [advance, if_neg h]

/-- R71, R75: before the last column an advance adds one to the column, without wrapping. -/
theorem advance_col_toNat_of_inner_col {s : State} (hc : s.col.toNat < s.dim.toNat)
    (h : s.col.toNat + 1 ≠ s.dim.toNat) : (advance s).col.toNat = s.col.toNat + 1 := by
  have hd := s.dim.isLt
  rw [advance_col, if_neg h, BitVec.toNat_ofNat, Nat.mod_eq_of_lt (by omega)]

/-- R74: `dim` has 16 bits, so the address of a valid cursor has 32. -/
theorem cursorAddr_lt_two_pow {s : State} (h : cursorValid s = true) : cursorAddr s < 2 ^ 32 :=
  calc cursorAddr s < s.dim.toNat * s.dim.toNat := cursorAddr_lt h
    _ ≤ 2 ^ 16 * 2 ^ 16 := Nat.mul_le_mul s.dim.isLt.le s.dim.isLt.le
    _ = 2 ^ 32 := by norm_num

/-- R12: a row register of at least 16 bits saturates at a value no `dim` exceeds, so the bounds check does not see
the saturation. -/
theorem cursorValid_saturateRow {rowW : Nat} (hw : 16 ≤ rowW) (s : State) :
    cursorValid (saturateRow rowW s) = cursorValid s := by
  have hd := s.dim.isLt
  have hpow : 2 ^ 16 ≤ 2 ^ rowW := Nat.pow_le_pow_right two_pos hw
  have hrow : min s.row (2 ^ rowW - 1) < s.dim.toNat ↔ s.row < s.dim.toNat := by
    rw [min_lt_iff]
    exact or_iff_left (by omega)
  rw [Bool.eq_iff_iff, cursorValid_iff, cursorValid_iff]
  exact and_congr_left' hrow

/-- R74: valid cursors over one image with the same linear address are at the same cell. -/
theorem cursor_eq_of_addr_eq {s t : State} (hdim : t.dim = s.dim) (hs : cursorValid s = true)
    (ht : cursorValid t = true) (h : cursorAddr s = cursorAddr t) : s.row = t.row ∧ s.col = t.col := by
  obtain ⟨hsr, hsc⟩ := row_col_of_addr ((cursorValid_iff s).1 hs).2
  obtain ⟨htr, htc⟩ := row_col_of_addr ((cursorValid_iff t).1 ht).2
  rw [hdim, ← h] at htr htc
  exact ⟨hsr.trans htr.symm, BitVec.eq_of_toNat_eq (hsc.trans htc.symm)⟩

end Sys2Proof.Machine

namespace Sys2Proof
open Machine

/-- Settles O14: the frame of a jump, with its column read off on either side of the clamp. -/
theorem jumpAddsThenClamps : Obligations.JumpAddsThenClamps := by
  unfold Obligations.JumpAddsThenClamps
  intro dX dY s
  refine ⟨fun hclamp => ?clamped, fun hlt => ⟨jump_frame dX dY s, ?exactSum⟩⟩
  case clamped => rw [jump_frame, jump_col, if_pos hclamp]
  case exactSum => rw [jump_col_toNat, if_neg (Nat.not_le.2 hlt)]

/-- Settles O15: the bounds check and the row-major address, each clause by its lemma. -/
theorem addressGeneratorExact : Obligations.AddressGeneratorExact := by
  unfold Obligations.AddressGeneratorExact
  intro s
  refine ⟨cursorValid_iff s, cursorAddr_eq s, fun hc => ?rowOnly,
    fun hv => ⟨cursorAddr_lt hv, cursorAddr_lt_two_pow hv⟩,
    fun _ hw => cursorValid_saturateRow hw s, fun _ => cursor_eq_of_addr_eq⟩
  case rowOnly => rw [cursorValid_iff, and_iff_left hc]

/-- Settles O13: the last column and the columns before it are the two branches of an advance. -/
theorem advanceWrapsAtDim : Obligations.AdvanceWrapsAtDim := by
  unfold Obligations.AdvanceWrapsAtDim
  intro s hc
  exact ⟨advance_of_last_col, fun h => ⟨advance_frame_of_inner_col h, advance_col_toNat_of_inner_col hc h⟩⟩

end Sys2Proof
end

section
/-! SUPPORT. The pixel write and the pre-fill as whole states (40_cursor_ops.md R81, R82, R84): what a write to the three
planes leaves to read, that the advance after it does not see it, and the statements of the family assembled from
them. -/

namespace Sys2Proof.Machine

variable (a : Nat) (p : Pixel) (s : State)

@[simp] theorem resolve_rgb (i : Byte) : (resolve s i).rgb = (paletteEntry s i).rgb := rfl

@[simp] theorem resolve_alpha (i : Byte) : (resolve s i).alpha = (paletteEntry s i).a := rfl

@[simp] theorem resolve_index (i : Byte) : (resolve s i).index = i := rfl

/-- R82: the RGB plane after a pixel write, address by address. -/
theorem read_rgb_writePixel (b : Nat) :
    (writePixel a p s).rgb.read b = if b = a then some p.rgb else s.rgb.read b :=
  (Memory.read_write s.rgb a b p.rgb).trans (if_congr eq_comm rfl rfl)

/-- R82: the alpha plane after a pixel write, address by address. -/
theorem read_alpha_writePixel (b : Nat) :
    (writePixel a p s).alpha.read b = if b = a then some p.alpha else s.alpha.read b :=
  (Memory.read_write s.alpha a b p.alpha).trans (if_congr eq_comm rfl rfl)

/-- R82: the index plane after a pixel write, address by address. -/
theorem read_index_writePixel (b : Nat) :
    (writePixel a p s).index.read b = if b = a then some p.index else s.index.read b :=
  (Memory.read_write s.index a b p.index).trans (if_congr eq_comm rfl rfl)

/-- R71, R82: the advance reads the cursor and `dim` only, so it commutes with a pixel write. -/
theorem advance_writePixel : advance (writePixel a p s) = writePixel a p (advance s) := by
  unfold advance
  rw [writePixel_col, writePixel_dim]
  split <;> rfl

variable {p s}

/-- R81, R82: a paint inside the buffer is the advance with one pixel written at the cursor from before it. -/
theorem paint_eq_writePixel_advance (i : Byte) (h : cursorValid s = true) :
    paint i s = .go () (writePixel (cursorAddr s) (resolve s i) (advance s)) := by
  rw [paint_of_valid i h, advance_writePixel]

/-- R32, R37: a cell below `dim` whose address holds a value in each plane has those values as its pixel. -/
theorem cellPixel_of_reads {row col : Nat} (hrow : row < s.dim.toNat) (hcol : col < s.dim.toNat)
    (hrgb : s.rgb.read (linearAddr s.dim row col) = some p.rgb)
    (halpha : s.alpha.read (linearAddr s.dim row col) = some p.alpha)
    (hindex : s.index.read (linearAddr s.dim row col) = some p.index) : cellPixel row col s = some p := by
  rw [cellPixel, if_pos ⟨hrow, hcol⟩, hrgb, halpha, hindex]

end Sys2Proof.Machine

namespace Sys2Proof
open Machine

/-- Settles O16: inside the buffer the planes are read off the pixel write of an advanced state, whose own planes are
those from before the paint; outside it the paint is a halt. -/
theorem paintChecksWritesAdvances : Obligations.PaintChecksWritesAdvances := by
  unfold Obligations.PaintChecksWritesAdvances
  intro i s
  refine ⟨fun hvalid => ⟨_, paint_eq_writePixel_advance i hvalid, fun a => ?rgb, fun a => ?alpha, fun a => ?index, rfl⟩,
    paint_of_invalid i⟩
  case rgb => rw [read_rgb_writePixel, advance_rgb, resolve_rgb]
  case alpha => rw [read_alpha_writePixel, advance_alpha, resolve_alpha]
  case index => rw [read_index_writePixel, advance_index, resolve_index]

/-- Settles O18: each plane reads as its fill at every address, so every cell below `dim` has the background pixel. -/
theorem prefillGivesBackground : Obligations.PrefillGivesBackground := by
  unfold Obligations.PrefillGivesBackground
  intro s
  refine ⟨fun r c hr hc => ?background, rfl⟩
  case background =>
    exact cellPixel_of_reads (s := prefill s) hr hc (Memory.read_filled _ _) (Memory.read_filled _ _)
      (Memory.read_filled _ _)

end Sys2Proof
end

section
/-! SUPPORT. The next stream bytes taken one at a time (42_sequencer.md R92), and the statement about `next_byte()`
assembled from its answers. -/

namespace Sys2Proof.Machine

/-- R92: stream bytes are ready when the first stands at `pos` below `len` and the rest are ready once it is consumed. -/
theorem bytesReady_cons_iff {s : State} {v : Byte} {vs : List Byte} :
    bytesReady s (v :: vs) ↔
      s.pos < s.len ∧ s.stream.read s.pos = some v ∧ bytesReady { s with pos := s.pos + 1 } vs := by
  simp only [bytesReady, Memory.holds, List.length_cons, Bool.and_eq_true, decide_eq_true_eq]
  constructor
  · rintro ⟨hlen, hread, hrest⟩
    exact ⟨by omega, hread, by omega, hrest⟩
  · rintro ⟨-, hread, hlen, hrest⟩
    exact ⟨by omega, hread, hrest⟩

/-- R92: with a byte ready, `nextByte` answers it and consumes it. -/
theorem nextByte_of_bytesReady {s : State} {v : Byte} {vs : List Byte} (h : bytesReady s (v :: vs)) :
    nextByte s = .go v { s with pos := s.pos + 1 } := by
  obtain ⟨hlt, hread, -⟩ := bytesReady_cons_iff.1 h
  exact nextByte_of_read hlt hread

end Sys2Proof.Machine

namespace Sys2Proof
open Machine

/-- Settles O11: at the end of the stream the halt is all that happens; before it a ready byte is consumed. -/
theorem nextByteConsumesOne : Obligations.NextByteConsumesOne := by
  unfold Obligations.NextByteConsumesOne
  exact ⟨fun _ hend => nextByte_of_end hend, fun _ _ hready => nextByte_of_bytesReady hready⟩

end Sys2Proof
end

section
/-! SUPPORT. Runs of paints (41_pixel_write.md R81, R82, 43_paint_units.md R100 to R102): the state after a list of
indices has been painted in order, what it leaves to read and where its cursor stands, and the two paint units reduced
to it. The statements of the family are assembled from these. -/

namespace Sys2Proof.Machine

/-! ### Painting a list of indices -/

/-- The state after one paint inside the buffer (R82). -/
def painted (i : Byte) (s : State) : State := advance (writePixel (cursorAddr s) (resolve s i) s)

/-- The state after these indices are painted in order, each inside the buffer. -/
def paintedAll : List Byte → State → State
  | [], s => s
  | i :: is, s => paintedAll is (painted i s)

/-- A run of n pixels needs no cell at all, or stays inside the buffer (R100). -/
def runHasRoom (s : State) (n : Nat) : Prop := n = 0 ∨ runFits s n

@[simp] theorem paintedAll_cons (i : Byte) (is : List Byte) (s : State) :
    paintedAll (i :: is) s = paintedAll is (painted i s) := rfl

@[simp] theorem painted_dim (i : Byte) (s : State) : (painted i s).dim = s.dim := advance_dim _

@[simp] theorem paintedAll_dim (is : List Byte) (s : State) : (paintedAll is s).dim = s.dim := by
  induction is generalizing s with
  | nil => rfl
  | cons i is ih => rw [paintedAll_cons, ih, painted_dim]

/-- R81: a paint changes the cursor and the planes only. -/
theorem painted_frame (i : Byte) (s : State) :
    painted i s = { s with
      row := (painted i s).row, col := (painted i s).col,
      rgb := (painted i s).rgb, alpha := (painted i s).alpha, index := (painted i s).index } := by
  unfold painted advance
  split <;> rfl

/-- R100: a run of paints changes the cursor and the planes only. -/
theorem paintedAll_frame (is : List Byte) (s : State) :
    paintedAll is s = { s with
      row := (paintedAll is s).row, col := (paintedAll is s).col,
      rgb := (paintedAll is s).rgb, alpha := (paintedAll is s).alpha, index := (paintedAll is s).index } := by
  induction is generalizing s with
  | nil => rfl
  | cons i is ih =>
    rw [paintedAll_cons]
    refine (ih (painted i s)).trans ?_
    generalize paintedAll is (painted i s) = t
    rw [painted_frame]

/-- An advance does not see the read position. -/
theorem advance_set_pos (s : State) (p : Nat) : advance { s with pos := p } = { advance s with pos := p } := by
  simp only [advance]
  split <;> rfl

theorem painted_set_pos (i : Byte) (s : State) (p : Nat) :
    painted i { s with pos := p } = { painted i s with pos := p } :=
  advance_set_pos (writePixel (cursorAddr s) (resolve s i) s) p

theorem paintedAll_set_pos (is : List Byte) (s : State) (p : Nat) :
    paintedAll is { s with pos := p } = { paintedAll is s with pos := p } := by
  induction is generalizing s with
  | nil => rfl
  | cons i is ih => rw [paintedAll_cons, painted_set_pos, ih, paintedAll_cons]

/-! ### The cursor along a run -/

/-- R71: with the column inside the image, a paint moves the cursor to the next row-major address. -/
theorem painted_addr (i : Byte) {s : State} (hc : s.col.toNat < s.dim.toNat) :
    cursorAddr (painted i s) = cursorAddr s + 1 ∧ (painted i s).col.toNat < s.dim.toNat :=
  advance_addr (s := writePixel (cursorAddr s) (resolve s i) s) hc

/-- R100: a run of paints moves the cursor on by its length in row-major order. -/
theorem paintedAll_addr (is : List Byte) {s : State} (hc : s.col.toNat < s.dim.toNat) :
    cursorAddr (paintedAll is s) = cursorAddr s + is.length ∧ (paintedAll is s).col.toNat < s.dim.toNat := by
  induction is generalizing s with
  | nil => exact ⟨rfl, hc⟩
  | cons i is ih =>
    obtain ⟨haddr, hcol⟩ := painted_addr i hc
    obtain ⟨haddrs, hcols⟩ := ih (s := painted i s) ((painted_dim i s).symm ▸ hcol)
    rw [paintedAll_cons, haddrs, haddr, List.length_cons]
    exact ⟨by omega, (painted_dim i s) ▸ hcols⟩

/-- R100: the row and the column after a run, read off its last address. -/
theorem paintedAll_row_col (is : List Byte) {s : State} (hc : s.col.toNat < s.dim.toNat) :
    (paintedAll is s).row = (cursorAddr s + is.length) / s.dim.toNat ∧
      (paintedAll is s).col.toNat = (cursorAddr s + is.length) % s.dim.toNat := by
  obtain ⟨haddr, hcol⟩ := paintedAll_addr is hc
  have hrc := row_col_of_addr (s := paintedAll is s) ((paintedAll_dim is s).symm ▸ hcol)
  rwa [haddr, paintedAll_dim] at hrc

/-- R100: the same for a run with room, the empty one from any cursor. -/
theorem paintedAll_row_col_of_room {is : List Byte} {s : State} (h : is = [] ∨ runFits s is.length) :
    (paintedAll is s).row = (if is = [] then s.row else (cursorAddr s + is.length) / s.dim.toNat) ∧
      (paintedAll is s).col.toNat = if is = [] then s.col.toNat else (cursorAddr s + is.length) % s.dim.toNat := by
  by_cases hnil : is = []
  · subst hnil
    exact ⟨rfl, rfl⟩
  · rw [if_neg hnil, if_neg hnil]
    exact paintedAll_row_col is (h.resolve_left hnil).1

/-- R100: with room for one pixel more, the first is painted and the rest has room from there. -/
theorem runHasRoom_succ {s : State} {n : Nat} (i : Byte) (h : runHasRoom s (n + 1)) :
    cursorValid s = true ∧ cursorAddr (painted i s) = cursorAddr s + 1 ∧ runHasRoom (painted i s) n := by
  obtain ⟨hc, hfit⟩ := h.resolve_left n.succ_ne_zero
  obtain ⟨haddr, hcol⟩ := painted_addr i hc
  refine ⟨(cursorValid_iff_addr hc).2 (by omega), haddr, .inr ?_⟩
  rw [runFits, painted_dim, haddr]
  exact ⟨hcol, by omega⟩

/-- R82: as many pixels as cells are left have room, none when the cursor is outside the buffer. -/
theorem runHasRoom_cellsLeft {s : State} (hc : s.col.toNat < s.dim.toNat) : runHasRoom s (cellsLeft s) := by
  unfold runHasRoom runFits cellsLeft
  omega

/-- R82: once the cells left are painted, the cursor is outside the buffer. -/
theorem cursorValid_paintedAll_cellsLeft {s : State} {is : List Byte} (hc : s.col.toNat < s.dim.toNat)
    (hlen : is.length = cellsLeft s) : cursorValid (paintedAll is s) = false := by
  obtain ⟨haddr, hcol⟩ := paintedAll_addr is hc
  rw [Bool.eq_false_iff, Ne, cursorValid_iff_addr ((paintedAll_dim is s).symm ▸ hcol), paintedAll_dim, haddr, hlen,
    cellsLeft]
  omega

/-- R75, R82: once the cells left are painted, the cursor is at the start of row `dim`, or where it was when it was
outside the buffer already. -/
theorem paintedAll_cellsLeft_row_col {s : State} {is : List Byte} (hc : s.col.toNat < s.dim.toNat)
    (hlen : is.length = cellsLeft s) :
    (paintedAll is s).row = (if s.row < s.dim.toNat then s.dim.toNat else s.row) ∧
      (paintedAll is s).col = if s.row < s.dim.toNat then 0#16 else s.col := by
  by_cases hrow : s.row < s.dim.toNat
  · have haddr := cursorAddr_lt ((cursorValid_iff s).2 ⟨hrow, hc⟩)
    have hend : cursorAddr s + is.length = s.dim.toNat * s.dim.toNat := by rw [hlen, cellsLeft]; omega
    obtain ⟨hr, hcol⟩ := paintedAll_row_col is hc
    rw [hend, Nat.mul_div_cancel _ (by omega)] at hr
    rw [hend, Nat.mul_mod_left] at hcol
    rw [if_pos hrow, if_pos hrow]
    exact ⟨hr, BitVec.eq_of_toNat_eq hcol⟩
  · have hout : ¬ cursorAddr s < s.dim.toNat * s.dim.toNat := fun h =>
      hrow ((cursorValid_iff s).1 ((cursorValid_iff_addr hc).2 h)).1
    have hnil : is = [] := List.length_eq_zero_iff.1 (by rw [hlen, cellsLeft]; omega)
    rw [if_neg hrow, if_neg hrow, hnil]
    exact ⟨rfl, rfl⟩

/-! ### The planes along a run -/

/-- From state s to state t, the k-th of the n row-major addresses from the cursor on got the resolved pixel of index
`cell k`, and no other address changed (R82, R100). -/
structure CellsPainted (cell : Nat → Option Byte) (n : Nat) (s t : State) : Prop where
  index : ∀ a, t.index.read a =
    if cursorAddr s ≤ a ∧ a < cursorAddr s + n then cell (a - cursorAddr s) else s.index.read a
  rgb : ∀ a, t.rgb.read a =
    if cursorAddr s ≤ a ∧ a < cursorAddr s + n then
      (cell (a - cursorAddr s)).map (fun i => (paletteEntry s i).rgb) else s.rgb.read a
  alpha : ∀ a, t.alpha.read a =
    if cursorAddr s ≤ a ∧ a < cursorAddr s + n then
      (cell (a - cursorAddr s)).map (fun i => (paletteEntry s i).a) else s.alpha.read a

/-- A block write after a write of the address below it reads as the block write of both. -/
theorem Memory.read_writeList_write {α : Type} [DecidableEq α] (m : Memory α) (a : Nat) (v : α)
    (vs : List α) (b : Nat) :
    ((m.write a v).writeList (a + 1) vs).read b = (m.writeList a (v :: vs)).read b := by
  rw [Memory.writeList, Memory.read_write, Memory.read_writeList, Memory.read_writeList, Memory.read_write]
  by_cases hab : a = b
  · rw [if_neg (by omega), if_pos hab, if_pos hab]
  · rw [if_neg hab, if_neg hab]

/-- R82, R100: a plane into which every paint writes a value of its index at the cursor reads, after a run, as after
one block write of the values of the run. -/
theorem read_plane_paintedAll {α : Type} [DecidableEq α] {plane : State → Memory α} {value : State → Byte → α}
    (hplane : ∀ i s, plane (painted i s) = (plane s).write (cursorAddr s) (value s i))
    (hvalue : ∀ i s, value (painted i s) = value s) {is : List Byte} {s : State}
    (h : runHasRoom s is.length) (a : Nat) :
    (plane (paintedAll is s)).read a = ((plane s).writeList (cursorAddr s) (is.map (value s))).read a := by
  induction is generalizing s with
  | nil => rfl
  | cons i is ih =>
    obtain ⟨-, haddr, hroom⟩ := runHasRoom_succ i h
    rw [paintedAll_cons, ih hroom, hplane, hvalue, haddr, Memory.read_writeList_write, List.map_cons]

theorem painted_rgb (i : Byte) (s : State) :
    (painted i s).rgb = s.rgb.write (cursorAddr s) (paletteEntry s i).rgb := advance_rgb _

theorem painted_alpha (i : Byte) (s : State) :
    (painted i s).alpha = s.alpha.write (cursorAddr s) (paletteEntry s i).a := advance_alpha _

theorem painted_index (i : Byte) (s : State) :
    (painted i s).index = s.index.write (cursorAddr s) i := advance_index _

@[simp] theorem paletteEntry_painted (i : Byte) (s : State) : paletteEntry (painted i s) = paletteEntry s :=
  funext fun j => (paletteEntry_advance _ j).trans (paletteEntry_writePixel _ _ s j)

/-- R100: a run paints the cells of its addresses, the k-th with the k-th index. -/
theorem cellsPainted_paintedAll {cell : Nat → Option Byte} {is : List Byte} {s : State}
    (h : runHasRoom s is.length) (hcell : ∀ k < is.length, is[k]? = cell k) :
    CellsPainted cell is.length s (paintedAll is s) where
  index a := by
    rw [read_plane_paintedAll (value := fun _ i => i) painted_index (fun _ _ => rfl) h, List.map_id',
      Memory.read_writeList]
    exact ite_congr rfl (fun hw => hcell _ (by omega)) fun _ => rfl
  rgb a := by
    rw [read_plane_paintedAll (value := fun s i => (paletteEntry s i).rgb) painted_rgb (by simp) h,
      Memory.read_writeList, List.length_map, List.getElem?_map]
    exact ite_congr rfl (fun hw => by rw [hcell _ (by omega)]) fun _ => rfl
  alpha a := by
    rw [read_plane_paintedAll (value := fun s i => (paletteEntry s i).a) painted_alpha (by simp) h,
      Memory.read_writeList, List.length_map, List.getElem?_map]
    exact ite_congr rfl (fun hw => by rw [hcell _ (by omega)]) fun _ => rfl

/-- R101: a run of one index paints it into every cell of its addresses. -/
theorem cellsPainted_replicate (i : Byte) {n : Nat} {s : State} (h : runHasRoom s n) :
    CellsPainted (fun _ => some i) n s (paintedAll (List.replicate n i) s) := by
  have hcells := cellsPainted_paintedAll (cell := fun _ => some i) (is := List.replicate n i) (s := s)
  rw [List.length_replicate] at hcells
  exact hcells h fun k hk => List.getElem?_replicate_of_lt hk

/-- R82: the addresses of the cells left are those from the cursor to the end of the buffer. -/
theorem cellsLeft_window (s : State) (a : Nat) :
    cursorAddr s ≤ a ∧ a < cursorAddr s + cellsLeft s ↔ cursorAddr s ≤ a ∧ a < s.dim.toNat * s.dim.toNat := by
  unfold cellsLeft
  omega

/-! ### The paint units as runs of paints -/

theorem paint_eq_painted {s : State} (i : Byte) (h : cursorValid s = true) : paint i s = .go () (painted i s) :=
  paint_of_valid i h

/-- R101: paints for which there is room all succeed, and the rest of the run goes on behind them. -/
theorem paintRun_of_room (idx : Byte) {k : Nat} (n : Nat) {s : State} (h : runHasRoom s k) :
    paintRun idx (k + n) s = paintRun idx n (paintedAll (List.replicate k idx) s) := by
  induction k generalizing s with
  | zero => rw [Nat.zero_add]; rfl
  | succ k ih =>
    obtain ⟨hvalid, -, hroom⟩ := runHasRoom_succ idx h
    rw [Nat.add_right_comm, paintRun, paint_eq_painted idx hvalid, Flow.andThen_go, ih hroom, List.replicate_succ,
      paintedAll_cons]

/-- R82, R101: a run longer than the cells left paints those, then halts at the cursor that finds none. -/
theorem paintRun_of_overflow (idx : Byte) {n : Nat} {s : State} (hc : s.col.toNat < s.dim.toNat)
    (hn : cellsLeft s < n) :
    paintRun idx n s = .stop (halt .errRowOverflow (paintedAll (List.replicate (cellsLeft s) idx) s)) := by
  obtain ⟨m, rfl⟩ := Nat.exists_eq_add_of_lt hn
  rw [Nat.add_assoc, paintRun_of_room idx (m + 1) (runHasRoom_cellsLeft hc), paintRun,
    paint_of_invalid idx (cursorValid_paintedAll_cellsLeft hc List.length_replicate), Flow.andThen_stop]

/-- R53, R102: an absolute unit is as many fetches and paints as its biased count says. -/
theorem exec_abs_of_count {n : Byte} {k : Nat} {s : State} (h : n.toNat - 2 = k) :
    exec (.abs n) s = (paintLiterals k s).outcome :=
  h ▸ rfl

/-- R92: ready bytes are ready up to any point, and from there on once the ones before it are consumed. -/
theorem bytesReady_append {s : State} {bs cs : List Byte} (h : bytesReady s (bs ++ cs)) :
    bytesReady s bs ∧ bytesReady { s with pos := s.pos + bs.length } cs := by
  simp only [bytesReady, Memory.holds_iff, List.length_append] at h ⊢
  obtain ⟨hlen, hread⟩ := h
  refine ⟨⟨by omega, fun k hk => ?_⟩, by omega, fun k hk => ?_⟩
  · rw [hread k (by omega), List.getElem_append_left hk]
  · rw [Nat.add_assoc, hread (bs.length + k) (by omega), List.getElem_append_right (by omega)]
    simp

/-- A paint leaves the stream and what is ready of it. -/
theorem bytesReady_painted (i : Byte) (s : State) (bs : List Byte) :
    bytesReady (painted i s) bs ↔ bytesReady s bs := by
  rw [painted_frame]

/-- R102: literals that are there and have room are all fetched and painted, and the rest of the unit goes on behind
them. -/
theorem paintLiterals_of_room {lits : List Byte} (n : Nat) {s : State} (hready : bytesReady s lits)
    (h : runHasRoom s lits.length) :
    paintLiterals (lits.length + n) s =
      paintLiterals n { paintedAll lits s with pos := s.pos + lits.length } := by
  induction lits generalizing s with
  | nil => rw [List.length_nil, Nat.zero_add]; rfl
  | cons v vs ih =>
    obtain ⟨-, -, hrest⟩ := bytesReady_cons_iff.1 hready
    have h' : runHasRoom { s with pos := s.pos + 1 } (vs.length + 1) := h
    obtain ⟨hvalid, -, hroom⟩ := runHasRoom_succ v h'
    rw [List.length_cons, Nat.add_right_comm, paintLiterals, nextByte_of_bytesReady hready, Flow.andThen_go,
      paint_eq_painted v hvalid, Flow.andThen_go, ih ((bytesReady_painted v _ vs).2 hrest) hroom, painted_set_pos,
      paintedAll_set_pos, paintedAll_cons]
    simp only [Nat.add_assoc, Nat.add_comm 1]

/-- R102, R123: when the literals run past the cells left, the ones before are painted and the first without a cell
is consumed by the halt. -/
theorem paintLiterals_of_overflow {lits : List Byte} {v : Byte} (n : Nat) {s : State}
    (hready : bytesReady s (lits ++ [v])) (hc : s.col.toNat < s.dim.toNat) (hlen : lits.length = cellsLeft s) :
    paintLiterals (lits.length + (n + 1)) s =
      .stop (halt .errRowOverflow { paintedAll lits s with pos := s.pos + (lits ++ [v]).length }) := by
  obtain ⟨hlits, hlast⟩ := bytesReady_append hready
  have hlast' : bytesReady { paintedAll lits s with pos := s.pos + lits.length } [v] := by
    rw [paintedAll_frame]; exact hlast
  have hinvalid : cursorValid { paintedAll lits s with pos := s.pos + lits.length + 1 } = false :=
    cursorValid_paintedAll_cellsLeft hc hlen
  rw [paintLiterals_of_room (n + 1) hlits (hlen ▸ runHasRoom_cellsLeft hc), paintLiterals,
    nextByte_of_bytesReady hlast', Flow.andThen_go, paint_of_invalid v hinvalid, Flow.andThen_stop,
    List.length_append]
  rfl

/-- R92, R102: when the stream ends before all literals are fetched, the ones there are painted and the fetch of the
next one halts, before any check of the cursor. -/
theorem paintLiterals_of_end {lits : List Byte} (n : Nat) {s : State} (hready : bytesReady s lits)
    (h : runHasRoom s lits.length) (hend : s.pos + lits.length = s.len) :
    paintLiterals (lits.length + (n + 1)) s =
      .stop (halt .streamExhausted { paintedAll lits s with pos := s.len }) := by
  have hexhausted : ({ paintedAll lits s with pos := s.len } : State).len ≤ s.len := by
    rw [paintedAll_frame]
  rw [paintLiterals_of_room (n + 1) hready h, hend, paintLiterals, nextByte_of_end hexhausted, Flow.andThen_stop]

end Sys2Proof.Machine

namespace Sys2Proof
open Machine

/-- Settles O19: the unit is one run of equal indices, as long as its count or as the cells left. -/
theorem encPaintsRun : Obligations.EncPaintsRun := by
  unfold Obligations.EncPaintsRun
  refine ⟨fun count idx s hfit => ?fits, fun count idx s _ hover => ?overflows⟩
  case fits =>
    obtain ⟨hindex, hrgb, halpha⟩ := cellsPainted_replicate idx (.inr hfit)
    obtain ⟨hrow, hcol⟩ := paintedAll_row_col (List.replicate count.toNat idx) hfit.1
    rw [List.length_replicate] at hrow hcol
    exact ⟨_, congrArg Flow.outcome (paintRun_of_room idx 0 (.inr hfit)), hindex, hrgb, halpha, hrow, hcol,
      paintedAll_frame _ s⟩
  case overflows =>
    obtain ⟨hc, hlt⟩ := hover
    have hleft : cellsLeft s < count.toNat := by unfold cellsLeft; omega
    obtain ⟨hindex, hrgb, halpha⟩ := cellsPainted_replicate idx (runHasRoom_cellsLeft hc)
    obtain ⟨hrow, hcol⟩ := paintedAll_cellsLeft_row_col (is := List.replicate (cellsLeft s) idx) hc
      List.length_replicate
    simp only [cellsLeft_window] at hindex hrgb halpha
    exact ⟨_, congrArg Flow.outcome (paintRun_of_overflow idx hc hleft), hindex, hrgb, halpha, hrow, hcol,
      congrArg (halt .errRowOverflow) (paintedAll_frame _ s)⟩

/-- Settles O21: the unit paints its first literals as one run; then it is done, or the next literal finds no cell, or
the stream has ended there. -/
theorem absPaintsLiterals : Obligations.AbsPaintsLiterals := by
  unfold Obligations.AbsPaintsLiterals
  refine ⟨fun n lits s hn hready hfit => ?all, fun n lits s hn hready hc hlen => ?overflow,
    fun n lits s hn hready hend hroom => ?exhausted⟩
  case all =>
    have hrun := congrArg Flow.outcome (paintLiterals_of_room 0 hready (.inr hfit))
    obtain ⟨hindex, hrgb, halpha⟩ := cellsPainted_paintedAll (is := lits) (.inr hfit) fun _ _ => rfl
    obtain ⟨hrow, hcol⟩ := paintedAll_row_col lits hfit.1
    exact ⟨_, (exec_abs_of_count hn.symm).trans hrun, hindex, hrgb, halpha, hrow, hcol,
      congrArg (fun t : State => { t with pos := s.pos + lits.length }) (paintedAll_frame lits s)⟩
  case overflow =>
    obtain rfl | ⟨init, last, rfl⟩ := lits.eq_nil_or_concat'
    · exact absurd hlen.symm (Nat.succ_ne_zero _)
    have hinit : init.length = cellsLeft s := by simpa using hlen
    obtain ⟨m, hm⟩ := Nat.exists_eq_add_of_le hn
    rw [List.length_append, List.length_singleton, Nat.add_assoc, Nat.add_comm 1] at hm
    have hrun := congrArg Flow.outcome (paintLiterals_of_overflow m hready hc hinit)
    obtain ⟨hindex, hrgb, halpha⟩ := cellsPainted_paintedAll (is := init) (hinit ▸ runHasRoom_cellsLeft hc)
      fun k hk => (List.getElem?_append_left (l₂ := [last]) hk).symm
    rw [hinit] at hindex hrgb halpha
    obtain ⟨hrow, hcol⟩ := paintedAll_cellsLeft_row_col hc hinit
    exact ⟨_, (exec_abs_of_count hm).trans hrun, hindex, hrgb, halpha, hrow, hcol,
      congrArg (fun t : State => halt .errRowOverflow { t with pos := s.pos + (init ++ [last]).length })
        (paintedAll_frame init s)⟩
  case exhausted =>
    obtain ⟨m, hm⟩ := Nat.exists_eq_add_of_lt hn
    have hroom' : runHasRoom s lits.length := hroom.imp_left List.length_eq_zero_iff.2
    have hrun := congrArg Flow.outcome (paintLiterals_of_end m hready hroom' hend)
    obtain ⟨hindex, hrgb, halpha⟩ := cellsPainted_paintedAll hroom' fun _ _ => rfl
    obtain ⟨hrow, hcol⟩ := paintedAll_row_col_of_room hroom
    exact ⟨_, (exec_abs_of_count hm).trans hrun, hindex, hrgb, halpha, hrow, hcol,
      congrArg (fun t : State => halt .streamExhausted { t with pos := s.len }) (paintedAll_frame lits s)⟩

end Sys2Proof
end

section
/-! SUPPORT. The two fetches of two bytes (42_sequencer.md R91, 44_escape_units.md R112) and the unit step over a ready
header; the statements about the escape units are assembled from them. -/

namespace Sys2Proof.Machine

/-- R92: two ready bytes are the next byte and, once it is consumed, the one after. -/
theorem nextByte_twice_of_bytesReady {s : State} {v w : Byte} {vs : List Byte} (h : bytesReady s (v :: w :: vs)) :
    nextByte s = .go v { s with pos := s.pos + 1 } ∧
      nextByte { s with pos := s.pos + 1 } = .go w { s with pos := s.pos + 2 } := by
  obtain ⟨-, -, hrest⟩ := bytesReady_cons_iff.1 h
  exact ⟨nextByte_of_bytesReady h, nextByte_of_bytesReady hrest⟩

/-- R91: over two ready bytes the header fetch latches unit_pos and consumes both. -/
theorem fetchHeader_of_bytesReady {s : State} {b0 b1 : Byte} {bs : List Byte} (h : bytesReady s (b0 :: b1 :: bs)) :
    fetchHeader s = .go (b0, b1) { s with unitPos := s.pos, pos := s.pos + 2 } := by
  obtain ⟨hlt, -, -⟩ := bytesReady_cons_iff.1 h
  obtain ⟨hb0, hb1⟩ := nextByte_twice_of_bytesReady (s := { s with unitPos := s.pos }) h
  rw [fetchHeader, if_neg hlt.not_ge, hb0, Flow.andThen_go, hb1, Flow.andThen_go]

/-- R91: a running block over a ready header executes the unit the header decodes to. -/
theorem step_of_bytesReady {s : State} {b0 b1 : Byte} {bs : List Byte} (hrun : s.status = .running)
    (h : bytesReady s (b0 :: b1 :: bs)) :
    step s = exec (decode b0 b1) { s with unitPos := s.pos, pos := s.pos + 2 } := by
  rw [step, if_pos hrun, fetchHeader_of_bytesReady h]

/-- R112: over two ready bytes the operand fetch of `DELTA` consumes both. -/
theorem fetchDelta_of_bytesReady {s : State} {dX dY : Byte} {bs : List Byte} (h : bytesReady s (dX :: dY :: bs)) :
    fetchDelta s = .go (dX, dY) { s with pos := s.pos + 2 } := by
  obtain ⟨hdX, hdY⟩ := nextByte_twice_of_bytesReady h
  rw [fetchDelta, hdX, Flow.andThen_go, hdY, Flow.andThen_go]

/-- R95, R112: with no byte left the operand fetch of `DELTA` halts at dX. -/
theorem fetchDelta_of_end {s : State} (h : s.len ≤ s.pos) : fetchDelta s = .stop (halt .streamExhausted s) := by
  rw [fetchDelta, nextByte_of_end h, Flow.andThen_stop]

/-- R95, R112: with one byte left the operand fetch of `DELTA` consumes it as dX and halts at dY. -/
theorem fetchDelta_of_last_byte {s : State} {dX : Byte} (h : bytesReady s [dX]) (hend : s.pos + 1 = s.len) :
    fetchDelta s = .stop (halt .streamExhausted { s with pos := s.len }) := by
  have hdY : nextByte { s with pos := s.len } = .stop (halt .streamExhausted { s with pos := s.len }) :=
    nextByte_of_end le_rfl
  rw [fetchDelta, nextByte_of_bytesReady h, Flow.andThen_go, hend, hdY, Flow.andThen_stop]

/-- R112: `DELTA` is a jump by its operands once both are fetched. -/
theorem exec_delta_of_fetched {s s1 : State} {dX dY : Byte} (h : fetchDelta s = .go (dX, dY) s1) :
    exec .delta s = .next (jump dX dY s1) := by
  rw [exec, execDelta, h, Flow.andThen_go, Flow.outcome_go]

/-- R112: `DELTA` ends where the fetch of its operands halts, without a jump. -/
theorem exec_delta_of_halted {s s1 : State} (h : fetchDelta s = .stop s1) : exec .delta s = .next s1 := by
  rw [exec, execDelta, h, Flow.andThen_stop, Flow.outcome_stop]

/-- R111: `END` is the halt with END_MARKER. -/
theorem exec_endMarker (s : State) : exec .endMarker s = .next (halt .endMarker s) := rfl

/-- R114: `ESC0` is the halt of InvalidEscape. -/
theorem exec_esc0 (s : State) : exec .esc0 s = .next (halt .errInvalidEscape s) := rfl

end Sys2Proof.Machine

namespace Sys2Proof
open Machine

/-- Settles O23: the operand fetch gives both bytes, or halts at dX, or halts at dY; only the first is followed by the
jump. -/
theorem deltaJumpsOrExhausts : Obligations.DeltaJumpsOrExhausts := by
  unfold Obligations.DeltaJumpsOrExhausts
  refine ⟨fun dX dY s hready => ?jumps, fun s hend => ?noOperand, fun dX s hready hend => ?onlyDX⟩
  case jumps =>
    refine ⟨_, exec_delta_of_fetched (fetchDelta_of_bytesReady hready), jump_row dX dY _, jump_col_toNat dX dY _,
      ?frame⟩
    case frame => rw [jump_row]; exact jump_frame dX dY _
  case noOperand => exact exec_delta_of_halted (fetchDelta_of_end hend)
  case onlyDX => exact exec_delta_of_halted (fetchDelta_of_last_byte hready hend)

/-- Settles O26: the halt of the unit, after the header `00 01` of the step. -/
theorem endHaltsSuccessfully : Obligations.EndHaltsSuccessfully := by
  unfold Obligations.EndHaltsSuccessfully
  refine ⟨exec_endMarker, fun s hrun hready => ?overHeader⟩
  case overHeader => rw [step_of_bytesReady hrun hready, decode_zero_one, exec_endMarker, halt]

/-- Settles O27: the halt of the unit, after the header `00 00` of the step. -/
theorem escZeroRaisesInvalidEscape : Obligations.EscZeroRaisesInvalidEscape := by
  unfold Obligations.EscZeroRaisesInvalidEscape
  refine ⟨exec_esc0, fun s hrun hready => ?overHeader⟩
  case overHeader => rw [step_of_bytesReady hrun hready, decode_zero_zero, exec_esc0, halt]

end Sys2Proof
end

section
/-! SUPPORT. The start command and the register writes of the host (70_reset_and_hazards.md R146 to R148): which start
commands are ignored, what an accepted one leaves in a cell, and the statements of the family assembled from them. -/

namespace Sys2Proof.Machine

variable {s : State}

/-- R146: outside RUNNING and with a DIM that is not 0, the start command is the start transition. -/
theorem startCommand_of_accepted (hstopped : s.status ≠ .running) (hdim : s.dimReg ≠ 0#16) :
    startCommand s = startSession s :=
  if_neg (not_or.2 ⟨hstopped, hdim⟩)

/-- R148: a start command while RUNNING is ignored. -/
theorem startCommand_of_running (h : s.status = .running) : startCommand s = s :=
  if_pos (.inl h)

/-- R147: a start command with DIM = 0 is ignored. -/
theorem startCommand_of_dimReg_zero (h : s.dimReg = 0#16) : startCommand s = s :=
  if_pos (.inr h)

/-- R17: a write that sets bit 0 of CTRL is the start command. -/
theorem hostWrite_ctrl_of_bit0 (w : Config.Widths) {v : Word32} (h : v.getLsbD 0 = true) :
    hostWrite w .ctrl v s = startCommand s :=
  if_pos h

/-- R148: while RUNNING a write to any register is ignored. -/
theorem hostWrite_of_running (w : Config.Widths) (r : Reg) (v : Word32) (h : s.status = .running) :
    hostWrite w r v s = s := by
  cases r with
  | ctrl => rw [hostWrite, startCommand_of_running h, ite_self]
  | dim | streamLen => exact if_pos h
  | status | pos | unitPos | curRow | curCol => rfl

/-- R84, R146: after the start transition every cell below DIM is palette entry 0 with index 0. -/
theorem cellPixel_startSession {r c : Nat} (hr : r < s.dimReg.toNat) (hc : c < s.dimReg.toNat) :
    cellPixel r c (startSession s) = some ⟨(paletteEntry s 0#8).rgb, (paletteEntry s 0#8).a, 0#8⟩ :=
  cellPixel_of_reads (s := startSession s) hr hc (Memory.read_filled _ _) (Memory.read_filled _ _)
    (Memory.read_filled _ _)

/-- R27, R146: the start transition sets the session's registers, latches DIM and STREAM_LEN, and changes nothing else
but the planes. -/
theorem startSession_frame (s : State) :
    startSession s = { s with
      status := .running, pos := 0, unitPos := 0, row := 0, col := 0#16, phase := .fetchB0, rem := 0#8,
      dim := s.dimReg, len := s.streamLenReg.toNat, rgb := (startSession s).rgb, alpha := (startSession s).alpha,
      index := (startSession s).index } :=
  rfl

end Sys2Proof.Machine

namespace Sys2Proof
open Machine

/-- Settles O48: the write is an accepted start command, hence the start transition. -/
theorem startCommandBeginsSession : Obligations.StartCommandBeginsSession := by
  unfold Obligations.StartCommandBeginsSession
  intro w v s hstopped hdim hbit
  have hne : s.dimReg ≠ 0#16 := by
    intro hzero
    rw [hzero] at hdim
    exact absurd hdim (by decide)
  exact ⟨startSession s, (hostWrite_ctrl_of_bit0 w hbit).trans (startCommand_of_accepted hstopped hne),
    fun _ _ => cellPixel_startSession, startSession_frame s⟩

/-- Settles O49: the two reasons for which a start command is ignored, and the register writes while RUNNING. -/
theorem ignoredHostWrites : Obligations.IgnoredHostWrites := by
  unfold Obligations.IgnoredHostWrites
  exact ⟨fun _ => startCommand_of_dimReg_zero, fun _ => startCommand_of_running,
    fun w r v _ => hostWrite_of_running w r v⟩

end Sys2Proof
end

section
/-! SUPPORT. Headers and whole units, both ways (30_encoding.md R50 to R60): the five shapes of a header, the round
trips of the header, the rows of the opcode table over a header word, and the statements about the encoding assembled
from them. -/

namespace Sys2Proof

/-- R52, R54: the header of a well-formed instruction decodes to it. -/
theorem decode_encode {i : Instr} (h : i.wellFormed = true) : decode (encode i).1 (encode i).2 = i := by
  cases i with
  | esc0 => exact Laws.RoundTrip.esc0 h
  | endMarker => exact Laws.RoundTrip.endMarker h
  | delta => exact Laws.RoundTrip.delta h
  | abs n => exact Laws.RoundTrip.abs n h
  | enc count idx => exact Laws.RoundTrip.enc count idx h

/-- R52: the five shapes of a header. -/
theorem header_cases (b0 b1 : Byte) :
    b0 ≠ 0#8 ∨ (b0 = 0#8 ∧ b1 = 0#8) ∨ (b0 = 0#8 ∧ b1 = 1#8) ∨ (b0 = 0#8 ∧ b1 = 2#8) ∨
      (b0 = 0#8 ∧ 3 ≤ b1.toNat) := by
  simp only [ne_eq, ← BitVec.toNat_inj, BitVec.toNat_ofNat, Nat.reducePow, Nat.reduceMod]
  omega

theorem one_le_toNat_iff_ne_zero {b : Byte} : 1 ≤ b.toNat ↔ b ≠ 0#8 := by
  rw [← BitVec.toNat_inj.ne, BitVec.toNat_ofNat, Nat.zero_mod, Nat.one_le_iff_ne_zero]

/-- R52, R54: every header is spelt by the well-formed instruction it decodes to. -/
theorem wellFormed_decode_and_encode_decode (b0 b1 : Byte) :
    (decode b0 b1).wellFormed = true ∧ encode (decode b0 b1) = (b0, b1) := by
  obtain h0 | ⟨rfl, rfl⟩ | ⟨rfl, rfl⟩ | ⟨rfl, rfl⟩ | ⟨rfl, h3⟩ := header_cases b0 b1
  · rw [decode_of_ne_zero b1 h0]
    exact ⟨decide_eq_true (one_le_toNat_iff_ne_zero.2 h0), rfl⟩
  · exact ⟨rfl, rfl⟩
  · exact ⟨rfl, rfl⟩
  · exact ⟨rfl, rfl⟩
  · rw [decode_zero_of_three_le h3]
    exact ⟨decide_eq_true h3, rfl⟩

/-- R58, R59: a header with its operand bytes there is framed whole. -/
theorem decodeUnit_of_operands {b0 b1 : Byte} {operands : List Byte} (rest : List Byte)
    (h : operands.length = (decode b0 b1).operandCount) :
    decodeUnit (b0 :: b1 :: (operands ++ rest)) = .whole (decode b0 b1) operands rest := by
  rw [decodeUnit, if_neg (by rw [List.length_append]; omega), ← h, List.take_left, List.drop_left]

/-- R58: a header with some operand byte missing is framed as cut. -/
theorem decodeUnit_of_missing {b0 b1 : Byte} {bs : List Byte} (h : bs.length < (decode b0 b1).operandCount) :
    decodeUnit (b0 :: b1 :: bs) = .cut (decode b0 b1) bs :=
  if_pos h

/-- R50, R59: the bytes of a well-formed unit decode to it. -/
theorem decodeUnit_encodeUnit {i : Instr} {operands : List Byte} (rest : List Byte) (h : i.wellFormed = true)
    (hlen : operands.length = i.operandCount) :
    decodeUnit (encodeUnit i operands ++ rest) = .whole i operands rest := by
  have hunit := decodeUnit_of_operands (b0 := (encode i).1) (b1 := (encode i).2) (operands := operands) rest
  rw [decode_encode h] at hunit
  exact hunit hlen

/-! ### The opcode table over a header word (R51, R55) -/

theorem headerWord_inj {b0 b1 c0 c1 : Byte} : headerWord b0 b1 = headerWord c0 c1 ↔ b0 = c0 ∧ b1 = c1 := by
  refine ⟨fun h => ⟨?_, ?_⟩, fun ⟨h0, h1⟩ => h0 ▸ h1 ▸ rfl⟩
  · have := congrArg (BitVec.extractLsb' 8 8) h
    rwa [headerWord, headerWord, BitVec.extractLsb'_append_eq_left, BitVec.extractLsb'_append_eq_left] at this
  · have := congrArg (BitVec.extractLsb' 0 8) h
    rwa [headerWord, headerWord, BitVec.extractLsb'_append_eq_right, BitVec.extractLsb'_append_eq_right] at this

/-- R55: the mask of a whole header word leaves both bytes. -/
theorem headerWord_and_whole_mask (b0 b1 : Byte) : headerWord b0 b1 &&& 0xFFFF#16 = headerWord b0 b1 :=
  BitVec.and_allOnes

/-- R55: the mask of `ABS` leaves b0. -/
theorem headerWord_and_high_mask (b0 b1 : Byte) : headerWord b0 b1 &&& 0xFF00#16 = headerWord b0 0#8 := by
  have hmask : (0xFF00#16 : Word16) = BitVec.allOnes 8 ++ 0#8 := by decide
  rw [hmask, headerWord, headerWord, BitVec.and_append, BitVec.and_allOnes, BitVec.and_zero]

/-- R55: which headers the mask and match of a row let through. -/
def rowAdmits : UnitKind → Byte → Byte → Prop
  | .esc0, b0, b1 => b0 = 0#8 ∧ b1 = 0#8
  | .endMarker, b0, b1 => b0 = 0#8 ∧ b1 = 1#8
  | .delta, b0, b1 => b0 = 0#8 ∧ b1 = 2#8
  | .abs, b0, _ => b0 = 0#8
  | .enc, _, _ => True

theorem rowMatch_iff_rowAdmits (k : UnitKind) (b0 b1 : Byte) :
    headerWord b0 b1 &&& rowMask k = rowMatch k ↔ rowAdmits k b0 b1 := by
  cases k with
  | esc0 => rw [rowMask, headerWord_and_whole_mask]; exact headerWord_inj (c0 := 0#8) (c1 := 0#8)
  | endMarker => rw [rowMask, headerWord_and_whole_mask]; exact headerWord_inj (c0 := 0#8) (c1 := 1#8)
  | delta => rw [rowMask, headerWord_and_whole_mask]; exact headerWord_inj (c0 := 0#8) (c1 := 2#8)
  | abs =>
    rw [rowMask, headerWord_and_high_mask]
    exact (headerWord_inj (c0 := 0#8) (c1 := 0#8)).trans (and_iff_left rfl)
  | enc => exact iff_true_intro BitVec.and_zero

/-- R55: the first row that lets a header through is that of the decoded instruction. -/
theorem firstMatch_headerWord (b0 b1 : Byte) : firstMatch (headerWord b0 b1) = some (decode b0 b1).kind := by
  simp only [firstMatch, opcodeRows, List.find?_cons, beq_eq_decide, rowMatch_iff_rowAdmits, rowAdmits]
  obtain h0 | ⟨rfl, rfl⟩ | ⟨rfl, rfl⟩ | ⟨rfl, rfl⟩ | ⟨rfl, h3⟩ := header_cases b0 b1
  · simp [h0, decode_of_ne_zero b1 h0, Instr.kind]
  · rfl
  · rfl
  · rfl
  · have hne (c : Byte) (hc : c.toNat < 3) : b1 ≠ c := fun h => absurd (h ▸ h3) (by omega)
    simp [hne 0#8 (by decide), hne 1#8 (by decide), hne 2#8 (by decide), decode_zero_of_three_le h3, Instr.kind]

/-- R55: of the exact constraints that of the decoded instruction's row holds, and no other. -/
theorem rowConstraint_iff_kind (k : UnitKind) (b0 b1 : Byte) :
    rowConstraint k b0 b1 = true ↔ k = (decode b0 b1).kind := by
  obtain h0 | ⟨rfl, rfl⟩ | ⟨rfl, rfl⟩ | ⟨rfl, rfl⟩ | ⟨rfl, h3⟩ := header_cases b0 b1
  · rw [decode_of_ne_zero b1 h0]
    have := one_le_toNat_iff_ne_zero.2 h0
    cases k <;> simp [rowConstraint, Instr.kind] <;> omega
  · cases k <;> decide
  · cases k <;> decide
  · cases k <;> decide
  · rw [decode_zero_of_three_le h3]
    cases k <;> simp [rowConstraint, Instr.kind] <;> omega

/-- Settles O1: the encoded unit is a header that decodes to its instruction, with its operands behind it. -/
theorem unitRoundTrip : Obligations.UnitRoundTrip := by
  unfold Obligations.UnitRoundTrip
  exact fun i operands rest hwf hlen => decodeUnit_encodeUnit rest hwf hlen

/-- Settles O2: of the four framings only that of two bytes with all operands behind them is whole. -/
theorem decodedUnitSpellsItsBytes : Obligations.DecodedUnitSpellsItsBytes := by
  unfold Obligations.DecodedUnitSpellsItsBytes
  refine ⟨wellFormed_decode_and_encode_decode, fun bytes operands rest i h => ?_⟩
  match bytes with
  | [] | [_] => cases h
  | b0 :: b1 :: bs =>
    obtain ⟨hwf, henc⟩ := wellFormed_decode_and_encode_decode b0 b1
    rw [decodeUnit] at h
    split at h
    · cases h
    · obtain ⟨rfl, rfl, rfl⟩ := Decoded.whole.inj h
      refine ⟨hwf, List.length_take_of_le (by omega), ?_⟩
      rw [encodeUnit, henc, List.cons_append, List.cons_append, List.take_append_drop]

/-- Settles O4: the rows in first-match order and the exact constraints, over the five shapes of a header. -/
theorem opcodeTableAgrees : Obligations.OpcodeTableAgrees := by
  unfold Obligations.OpcodeTableAgrees
  exact fun b0 b1 => ⟨firstMatch_headerWord b0 b1, fun k => rowConstraint_iff_kind k b0 b1⟩

/-- Settles O5: the length over the five shapes of a header; the bytes after it are the operands and a rest, or too
few. -/
theorem unitLengthFromHeader : Obligations.UnitLengthFromHeader := by
  unfold Obligations.UnitLengthFromHeader
  intro b0 b1 bs
  refine ⟨?length, fun hle => ?whole, fun hlt => ?cut⟩
  case length =>
    obtain h0 | ⟨rfl, rfl⟩ | ⟨rfl, rfl⟩ | ⟨rfl, rfl⟩ | ⟨rfl, h3⟩ := header_cases b0 b1
    · have := one_le_toNat_iff_ne_zero.2 h0
      rw [decode_of_ne_zero b1 h0, if_pos (by omega)]
      rfl
    · rfl
    · rfl
    · rfl
    · rw [decode_zero_of_three_le h3, if_neg (by decide), if_neg (by omega), if_neg (by omega), Instr.unitLength,
        Instr.operandCount]
      omega
  all_goals simp only [Instr.unitLength, List.length_cons] at *
  case whole =>
    have hlen : (bs.take (decode b0 b1).operandCount).length = (decode b0 b1).operandCount :=
      List.length_take_of_le (by omega)
    have hunit := decodeUnit_of_operands (bs.drop (decode b0 b1).operandCount) hlen
    rw [List.take_append_drop] at hunit
    exact ⟨_, _, hunit, by rw [hlen], (List.take_append_drop _ _).symm⟩
  case cut => exact decodeUnit_of_missing (by omega)

/-- Settles O6: each line emits the encoding of a well-formed unit with its operands. -/
theorem assembledLinesDecode : Obligations.AssembledLinesDecode := by
  unfold Obligations.AssembledLinesDecode
  refine ⟨fun _ => rfl, rfl, fun count idx hcount => ?enc, fun lits hmin hmax => ?abs, fun dX dY => rfl, rfl, rfl⟩
  case enc =>
    have hwf : (Instr.enc count idx).wellFormed = true := decide_eq_true (one_le_toNat_iff_ne_zero.2 hcount)
    rw [assemble, if_neg hcount]
    exact congrArg some (decodeUnit_encodeUnit (operands := []) [] hwf rfl)
  case abs =>
    have hn : (BitVec.ofNat 8 (lits.length + 2)).toNat = lits.length + 2 := by
      rw [BitVec.toNat_ofNat, Nat.mod_eq_of_lt (by omega)]
    have hwf : (Instr.abs (BitVec.ofNat 8 (lits.length + 2))).wellFormed = true :=
      decide_eq_true (by omega)
    have hunit := decodeUnit_encodeUnit (operands := lits) [] hwf (by rw [Instr.operandCount, hn]; omega)
    rw [assemble, if_pos ⟨hmin, hmax⟩]
    rw [List.append_nil] at hunit
    exact congrArg some hunit

/-- Settles O7: each header falls under one decoder equation. -/
theorem specHeadersDecode : Obligations.SpecHeadersDecode := by
  unfold Obligations.SpecHeadersDecode
  refine ⟨decode_zero_zero, decode_zero_one, decode_zero_two, decode_zero_of_three_le (by decide),
    decode_zero_of_three_le (by decide), decode_of_ne_zero _ (by decide), decode_of_ne_zero _ (by decide),
    decode_of_ne_zero _ (by decide), rfl, rfl, rfl⟩

end Sys2Proof
end

section
/-! SUPPORT. Every way a unit can end, said once: the inversions of a run of paints, of a run of literals, of the
two-byte fetches, of the units that paint or jump, and of the step of a running block (42_sequencer.md R91 to R95,
43_paint_units.md R100 to R102, 44_escape_units.md R112). -/

namespace Sys2Proof.Machine

/-! ### What a run of paints leaves -/

@[simp] theorem painted_pos (i : Byte) (s : State) : (painted i s).pos = s.pos := advance_pos _

@[simp] theorem painted_status (i : Byte) (s : State) : (painted i s).status = s.status := advance_status _

@[simp] theorem painted_phase (i : Byte) (s : State) : (painted i s).phase = s.phase := advance_phase _

@[simp] theorem painted_len (i : Byte) (s : State) : (painted i s).len = s.len := advance_len _

@[simp] theorem painted_stream (i : Byte) (s : State) : (painted i s).stream = s.stream := advance_stream _

@[simp] theorem paintedAll_status (is : List Byte) (s : State) : (paintedAll is s).status = s.status := by
  rw [paintedAll_frame]

@[simp] theorem paintedAll_phase (is : List Byte) (s : State) : (paintedAll is s).phase = s.phase := by
  rw [paintedAll_frame]

@[simp] theorem paintedAll_pos (is : List Byte) (s : State) : (paintedAll is s).pos = s.pos := by
  rw [paintedAll_frame]

@[simp] theorem paintedAll_unitPos (is : List Byte) (s : State) : (paintedAll is s).unitPos = s.unitPos := by
  rw [paintedAll_frame]

@[simp] theorem paintedAll_len (is : List Byte) (s : State) : (paintedAll is s).len = s.len := by
  rw [paintedAll_frame]

@[simp] theorem paintedAll_stream (is : List Byte) (s : State) : (paintedAll is s).stream = s.stream := by
  rw [paintedAll_frame]

/-- The planes of two states read alike at an address. -/
def samePixelAt (a : Nat) (s t : State) : Prop :=
  t.rgb.read a = s.rgb.read a ∧ t.alpha.read a = s.alpha.read a ∧ t.index.read a = s.index.read a

/-- R100: a run of at most n paints with room changes no cell outside the n addresses from the cursor on. -/
theorem samePixelAt_paintedAll {is : List Byte} {s : State} {n a : Nat} (h : runHasRoom s is.length)
    (hn : is.length ≤ n) (ha : a < cursorAddr s ∨ cursorAddr s + n ≤ a) : samePixelAt a s (paintedAll is s) := by
  obtain ⟨hindex, hrgb, halpha⟩ := cellsPainted_paintedAll h fun _ _ => rfl
  have hout : ¬ (cursorAddr s ≤ a ∧ a < cursorAddr s + is.length) := by omega
  exact ⟨(hrgb a).trans (if_neg hout), (halpha a).trans (if_neg hout), (hindex a).trans (if_neg hout)⟩

/-- R100: a paint inside the buffer with room for n more behind it is room for n + 1. -/
theorem runHasRoom_of_painted {i : Byte} {n : Nat} {s : State} (hvalid : cursorValid s = true)
    (h : runHasRoom (painted i s) n) : runHasRoom s (n + 1) := by
  have hc := ((cursorValid_iff s).1 hvalid).2
  have haddr := cursorAddr_lt hvalid
  rw [runHasRoom, runFits, painted_dim, (painted_addr i hc).1] at h
  exact .inr ⟨hc, by omega⟩

/-- R82, R101: a run paints all its pixels, or those before the first that finds the cursor outside the buffer. -/
theorem paintRun_cases (idx : Byte) (n : Nat) (s : State) :
    ∃ k ≤ n, runHasRoom s k ∧
      ((k = n ∧ paintRun idx n s = .go () (paintedAll (List.replicate k idx) s)) ∨
        (cursorValid (paintedAll (List.replicate k idx) s) = false ∧
          paintRun idx n s = .stop (halt .errRowOverflow (paintedAll (List.replicate k idx) s)))) := by
  induction n generalizing s with
  | zero => exact ⟨0, le_rfl, .inl rfl, .inl ⟨rfl, rfl⟩⟩
  | succ n ih =>
    cases hvalid : cursorValid s with
    | true =>
      obtain ⟨k, hk, hroom, hend⟩ := ih (painted idx s)
      have hrun : paintRun idx (n + 1) s = paintRun idx n (painted idx s) := by
        rw [paintRun, paint_eq_painted idx hvalid, Flow.andThen_go]
      rw [hrun]
      exact ⟨k + 1, Nat.succ_le_succ hk, runHasRoom_of_painted hvalid hroom,
        hend.imp_left fun ⟨hkn, hgo⟩ => ⟨congrArg Nat.succ hkn, hgo⟩⟩
    | false =>
      refine ⟨0, Nat.zero_le _, .inl rfl, .inr ⟨hvalid, ?_⟩⟩
      rw [paintRun, paint_of_invalid idx hvalid, Flow.andThen_stop]
      rfl

/-! ### What a run of literals leaves -/

/-- The state after these literals were fetched and painted. -/
def afterLiterals (lits : List Byte) (s : State) : State :=
  { paintedAll lits s with pos := s.pos + lits.length }

theorem afterLiterals_cons (v : Byte) (vs : List Byte) (s : State) :
    afterLiterals vs (painted v { s with pos := s.pos + 1 }) = afterLiterals (v :: vs) s := by
  rw [afterLiterals, afterLiterals, painted_set_pos, paintedAll_set_pos, paintedAll_cons, List.length_cons]
  simp only [Nat.add_assoc, Nat.add_comm 1]

/-- R102: fetched and painted literals change pos, the cursor and the planes only. -/
theorem afterLiterals_frame (lits : List Byte) (s : State) :
    afterLiterals lits s = { s with
      pos := s.pos + lits.length, row := (paintedAll lits s).row, col := (paintedAll lits s).col,
      rgb := (paintedAll lits s).rgb, alpha := (paintedAll lits s).alpha, index := (paintedAll lits s).index } := by
  rw [afterLiterals, paintedAll_frame]

/-- R92, R102: the ways n fetches and paints can end once the literals `lits` are painted. -/
inductive LiteralsEnd (n : Nat) (lits : List Byte) (s : State) : Flow Unit → Prop
  | done (hlen : lits.length = n) : LiteralsEnd n lits s (.go () (afterLiterals lits s))
  | exhausted (hlen : lits.length < n) (hend : s.len ≤ s.pos + lits.length) :
    LiteralsEnd n lits s (.stop (halt .streamExhausted (afterLiterals lits s)))
  | notLoaded (hlen : lits.length < n) (hlt : s.pos + lits.length < s.len)
    (hread : s.stream.read (s.pos + lits.length) = none) :
    LiteralsEnd n lits s (.fault (.streamNotLoaded (s.pos + lits.length)))
  | overflow (hlen : lits.length < n) (hlt : s.pos + lits.length < s.len)
    (hinvalid : cursorValid (afterLiterals lits s) = false) :
    LiteralsEnd n lits s (.stop (halt .errRowOverflow { afterLiterals lits s with pos := s.pos + lits.length + 1 }))

theorem LiteralsEnd.cons {n : Nat} {v : Byte} {vs : List Byte} {s : State} {f : Flow Unit}
    (h : LiteralsEnd n vs (painted v { s with pos := s.pos + 1 }) f) : LiteralsEnd (n + 1) (v :: vs) s f := by
  have hpos : (painted v { s with pos := s.pos + 1 }).pos + vs.length = s.pos + (v :: vs).length := by
    rw [painted_pos, Nat.add_assoc, Nat.add_comm 1, List.length_cons]
  cases h with
  | done hn => rw [afterLiterals_cons]; exact .done (congrArg Nat.succ hn)
  | exhausted hn hend =>
    rw [afterLiterals_cons]
    exact .exhausted (Nat.succ_lt_succ hn) (by rwa [hpos, painted_len] at hend)
  | notLoaded hn hlt hread =>
    rw [hpos] at hlt hread ⊢
    exact .notLoaded (Nat.succ_lt_succ hn) (by rwa [painted_len] at hlt) (by rwa [painted_stream] at hread)
  | overflow hn hlt hinvalid =>
    rw [afterLiterals_cons] at hinvalid ⊢
    rw [hpos] at hlt ⊢
    exact .overflow (Nat.succ_lt_succ hn) (by rwa [painted_len] at hlt) hinvalid

/-- R92, R102: n fetches and paints take the next stream bytes as literals as long as they have room, then end in one of
four ways. -/
theorem paintLiterals_cases (n : Nat) (s : State) :
    ∃ lits, lits.length ≤ n ∧ s.stream.holds s.pos lits = true ∧ runHasRoom s lits.length ∧
      LiteralsEnd n lits s (paintLiterals n s) := by
  induction n generalizing s with
  | zero => exact ⟨[], le_rfl, rfl, .inl rfl, .done rfl⟩
  | succ n ih =>
    rw [paintLiterals]
    obtain ⟨hend, hbyte⟩ | ⟨hlt, v, hread, hbyte⟩ | ⟨hlt, hread, hbyte⟩ := nextByte_cases s <;> rw [hbyte]
    case inl => exact ⟨[], Nat.zero_le _, rfl, .inl rfl, .exhausted n.succ_pos hend⟩
    case inr.inr => exact ⟨[], Nat.zero_le _, rfl, .inl rfl, .notLoaded n.succ_pos hlt hread⟩
    case inr.inl =>
      rw [Flow.andThen_go]
      cases hvalid : cursorValid s with
      | false =>
        rw [paint_of_invalid (s := { s with pos := s.pos + 1 }) v hvalid]
        exact ⟨[], Nat.zero_le _, rfl, .inl rfl, .overflow n.succ_pos hlt hvalid⟩
      | true =>
        rw [paint_eq_painted (s := { s with pos := s.pos + 1 }) v hvalid, Flow.andThen_go]
        obtain ⟨lits, hlen, hholds, hroom, hend⟩ := ih (painted v { s with pos := s.pos + 1 })
        rw [painted_stream, painted_pos] at hholds
        refine ⟨v :: lits, Nat.succ_le_succ hlen, ?_,
          runHasRoom_of_painted (s := { s with pos := s.pos + 1 }) hvalid hroom, hend.cons⟩
        rw [Memory.holds, hread, hholds, decide_eq_true rfl, Bool.true_and]

/-! ### The two-byte fetches, the step, and the units that paint or jump -/

/-- R92: a byte below len that nobody loaded is a fault (log entry 5). -/
theorem nextByte_of_unloaded {s : State} (hlt : s.pos < s.len) (hread : s.stream.read s.pos = none) :
    nextByte s = .fault (.streamNotLoaded s.pos) := by
  rw [nextByte, if_neg hlt.not_ge, hread]

theorem fetchDelta_of_unloaded_first {s : State} (hlt : s.pos < s.len) (hread : s.stream.read s.pos = none) :
    fetchDelta s = .fault (.streamNotLoaded s.pos) := by
  rw [fetchDelta, nextByte_of_unloaded hlt hread, Flow.andThen_fault]

theorem fetchDelta_of_unloaded_second {s : State} {b : Byte} (hready : bytesReady s [b]) (hlt : s.pos + 1 < s.len)
    (hread : s.stream.read (s.pos + 1) = none) : fetchDelta s = .fault (.streamNotLoaded (s.pos + 1)) := by
  rw [fetchDelta, nextByte_of_bytesReady hready, Flow.andThen_go,
    nextByte_of_unloaded (s := { s with pos := s.pos + 1 }) hlt hread, Flow.andThen_fault]

/-- R92, R112: the two fetches of `DELTA` give both bytes, or end at the first or the second, or meet a byte nobody
loaded. -/
theorem fetchDelta_cases (s : State) :
    (s.len ≤ s.pos ∧ fetchDelta s = .stop (halt .streamExhausted s)) ∨
    (∃ b, bytesReady s [b] ∧ s.pos + 1 = s.len ∧ fetchDelta s = .stop (halt .streamExhausted { s with pos := s.len })) ∨
    (∃ b0 b1, bytesReady s [b0, b1] ∧ fetchDelta s = .go (b0, b1) { s with pos := s.pos + 2 }) ∨
    (∃ a, s.pos ≤ a ∧ a < s.len ∧ s.stream.read a = none ∧ fetchDelta s = .fault (.streamNotLoaded a)) := by
  obtain ⟨hend, -⟩ | ⟨hlt, b0, hread, -⟩ | ⟨hlt, hread, -⟩ := nextByte_cases s
  · exact .inl ⟨hend, fetchDelta_of_end hend⟩
  · have hready : bytesReady s [b0] := bytesReady_cons_iff.2 ⟨hlt, hread, hlt, rfl⟩
    obtain ⟨hend, -⟩ | ⟨hlt1, b1, hread1, -⟩ | ⟨hlt1, hread1, -⟩ := nextByte_cases { s with pos := s.pos + 1 }
    · have hlast : s.pos + 1 = s.len := le_antisymm hlt hend
      exact .inr (.inl ⟨b0, hready, hlast, fetchDelta_of_last_byte hready hlast⟩)
    · have hready2 : bytesReady s [b0, b1] :=
        bytesReady_cons_iff.2 ⟨hlt, hread, bytesReady_cons_iff.2 ⟨hlt1, hread1, hlt1, rfl⟩⟩
      exact .inr (.inr (.inl ⟨b0, b1, hready2, fetchDelta_of_bytesReady hready2⟩))
    · exact .inr (.inr (.inr
        ⟨s.pos + 1, Nat.le_succ _, hlt1, hread1, fetchDelta_of_unloaded_second hready hlt1 hread1⟩))
  · exact .inr (.inr (.inr ⟨s.pos, le_rfl, hlt, hread, fetchDelta_of_unloaded_first hlt hread⟩))

/-- R91: before the end of the stream the header fetch is the same two fetches, with unit_pos latched. -/
theorem fetchHeader_of_lt {s : State} (h : s.pos < s.len) : fetchHeader s = fetchDelta { s with unitPos := s.pos } :=
  if_neg h.not_ge

theorem step_of_fetchHeader_fault {s : State} {f : Fault} (hrun : s.status = .running) (h : fetchHeader s = .fault f) :
    step s = .fault f := by
  rw [step, if_pos hrun, h]

/-- R91, R93, R95: a step of a running block ends at the boundary or after a lone b0, executes the unit of its header,
or meets a byte nobody loaded. -/
theorem step_cases {s : State} (hrun : s.status = .running) :
    (s.len ≤ s.pos ∧ step s = .next (halt .streamExhausted s)) ∨
    (∃ b, bytesReady s [b] ∧ s.pos + 1 = s.len ∧
      step s = .next (halt .streamExhausted { s with unitPos := s.pos, pos := s.len })) ∨
    (∃ b0 b1, bytesReady s [b0, b1] ∧ step s = exec (decode b0 b1) { s with unitPos := s.pos, pos := s.pos + 2 }) ∨
    (∃ a, s.pos ≤ a ∧ a < s.len ∧ s.stream.read a = none ∧ step s = .fault (.streamNotLoaded a)) := by
  rw [step, if_pos hrun]
  by_cases hend : s.len ≤ s.pos
  · rw [fetchHeader, if_pos hend]
    exact .inl ⟨hend, rfl⟩
  · rw [fetchHeader_of_lt (Nat.lt_of_not_le hend)]
    obtain ⟨hend', -⟩ | ⟨b, hready, hlast, hfetch⟩ | ⟨b0, b1, hready, hfetch⟩ | ⟨a, hle, hlt, hread, hfetch⟩ :=
      fetchDelta_cases { s with unitPos := s.pos }
    · exact absurd hend' hend
    · rw [hfetch]
      exact .inr (.inl ⟨b, hready, hlast, rfl⟩)
    · rw [hfetch]
      exact .inr (.inr (.inl ⟨b0, b1, hready, rfl⟩))
    · rw [hfetch]
      exact .inr (.inr (.inr ⟨a, hle, hlt, hread, rfl⟩))

/-- R90: outside RUNNING a step is the same state. -/
theorem step_of_not_running {s : State} (h : s.status ≠ .running) : step s = .next s :=
  if_neg h

/-- R112: `DELTA` faults where the fetch of its operands does. -/
theorem exec_delta_of_fault {s : State} {f : Fault} (h : fetchDelta s = .fault f) : exec .delta s = .fault f := by
  rw [exec, execDelta, h, Flow.andThen_fault, Flow.outcome_fault]

/-- R101: what a next state of `ENC` is. -/
theorem exec_enc_cases {count idx : Byte} {s t : State} (h : exec (.enc count idx) s = .next t) :
    ∃ k ≤ count.toNat, runHasRoom s k ∧
      (t = paintedAll (List.replicate k idx) s ∨
        cursorValid (paintedAll (List.replicate k idx) s) = false ∧
          t = halt .errRowOverflow (paintedAll (List.replicate k idx) s)) := by
  obtain ⟨k, hk, hroom, ⟨-, hend⟩ | ⟨hinvalid, hend⟩⟩ := paintRun_cases idx count.toNat s
  · exact ⟨k, hk, hroom, .inl (Host.Outcome.next.inj (h.symm.trans (congrArg Flow.outcome hend)))⟩
  · exact ⟨k, hk, hroom, .inr ⟨hinvalid, Host.Outcome.next.inj (h.symm.trans (congrArg Flow.outcome hend))⟩⟩

/-- R102: what a next state of `ABS` is. -/
theorem exec_abs_cases {n : Byte} {s t : State} (h : exec (.abs n) s = .next t) :
    ∃ lits : List Byte, lits.length ≤ n.toNat - 2 ∧ runHasRoom s lits.length ∧
      (lits.length = n.toNat - 2 ∧ t = afterLiterals lits s ∨
        s.len ≤ s.pos + lits.length ∧ t = halt .streamExhausted (afterLiterals lits s) ∨
        lits.length < n.toNat - 2 ∧ cursorValid (afterLiterals lits s) = false ∧
          t = halt .errRowOverflow { afterLiterals lits s with pos := s.pos + lits.length + 1 }) := by
  obtain ⟨lits, hle, -, hroom, hend⟩ := paintLiterals_cases (n.toNat - 2) s
  refine ⟨lits, hle, hroom, ?_⟩
  rw [exec_abs_of_count rfl] at h
  generalize paintLiterals (n.toNat - 2) s = f at h hend
  cases hend with
  | done hlen => exact .inl ⟨hlen, (Host.Outcome.next.inj h).symm⟩
  | exhausted hlen hlast => exact .inr (.inl ⟨hlast, (Host.Outcome.next.inj h).symm⟩)
  | notLoaded hlen hlt hread => cases h
  | overflow hlen hlt hinvalid => exact .inr (.inr ⟨hlen, hinvalid, (Host.Outcome.next.inj h).symm⟩)

/-- R112: what a next state of `DELTA` is. -/
theorem exec_delta_cases {s t : State} (h : exec .delta s = .next t) :
    (∃ dX dY, bytesReady s [dX, dY] ∧ t = jump dX dY { s with pos := s.pos + 2 }) ∨
      ∃ p, s.len ≤ p ∧ t = halt .streamExhausted { s with pos := p } := by
  obtain ⟨hend, hfetch⟩ | ⟨b, -, -, hfetch⟩ | ⟨dX, dY, hready, hfetch⟩ | ⟨a, -, -, -, hfetch⟩ := fetchDelta_cases s
  · exact .inr ⟨s.pos, hend, Host.Outcome.next.inj (h.symm.trans (exec_delta_of_halted hfetch))⟩
  · exact .inr ⟨s.len, le_rfl, Host.Outcome.next.inj (h.symm.trans (exec_delta_of_halted hfetch))⟩
  · exact .inl ⟨dX, dY, hready, Host.Outcome.next.inj (h.symm.trans (exec_delta_of_fetched hfetch))⟩
  · rw [exec_delta_of_fault hfetch] at h
    cases h

end Sys2Proof.Machine

namespace Sys2Proof
open Machine

/-- Settles O20: a run of paints changes the cursor and the planes, the halt after it status and phase. -/
theorem encFrame : Obligations.EncFrame := by
  unfold Obligations.EncFrame
  intro count idx s t h
  obtain ⟨k, hk, hroom, hend⟩ := exec_enc_cases h
  rw [← List.length_replicate (n := k) (a := idx)] at hk hroom
  have hcells (a : Nat) := samePixelAt_paintedAll (a := a) hroom hk
  obtain rfl | ⟨-, rfl⟩ := hend
  · exact ⟨by rw [paintedAll_frame], .inl ⟨paintedAll_status _ s, paintedAll_phase _ s⟩, hcells⟩
  · exact ⟨by rw [paintedAll_frame]; rfl, .inr ⟨rfl, rfl⟩, hcells⟩

/-- Settles O22: a run of literals changes pos, the cursor and the planes, the halt after it status and phase; each
literal is one byte consumed, that of the halt included. -/
theorem absFrame : Obligations.AbsFrame := by
  unfold Obligations.AbsFrame
  intro n s t h
  obtain ⟨lits, hle, hroom, hend⟩ := exec_abs_cases h
  have hcells (a : Nat) := samePixelAt_paintedAll (a := a) hroom hle
  have hframe := afterLiterals_frame lits s
  obtain ⟨hlen, rfl⟩ | ⟨-, rfl⟩ | ⟨hlt, -, rfl⟩ := hend
  · exact ⟨by rw [hframe], .inl ⟨paintedAll_status lits s, paintedAll_phase lits s⟩, Nat.le_add_right _ _,
      Nat.add_le_add_left hle _, hcells⟩
  · exact ⟨by rw [hframe]; rfl, .inr ⟨.inr rfl, rfl⟩, Nat.le_add_right _ _, Nat.add_le_add_left hle _, hcells⟩
  · exact ⟨by rw [hframe]; rfl, .inr ⟨.inl rfl, rfl⟩, Nat.le_add_right _ (lits.length + 1),
      Nat.add_le_add_left hlt _, hcells⟩

/-- Settles O24: the jump changes the cursor after two bytes, the halt status and phase only. -/
theorem deltaFrame : Obligations.DeltaFrame := by
  unfold Obligations.DeltaFrame
  intro s t h
  obtain ⟨dX, dY, -, rfl⟩ | ⟨p, -, rfl⟩ := exec_delta_cases h
  · refine ⟨by rw [jump_frame], .inl ⟨jump_status dX dY _, jump_phase dX dY _, jump_pos dX dY _⟩, fun a => ?_⟩
    rw [jump_rgb, jump_alpha, jump_index]
    exact ⟨rfl, rfl, rfl⟩
  · exact ⟨rfl, .inr ⟨rfl, rfl, rfl, rfl⟩, fun a => ⟨rfl, rfl, rfl⟩⟩

/-- Settles O28: the status clause of each unit's frame, and the two units that always halt. -/
theorem outcomesPerUnit : Obligations.OutcomesPerUnit := by
  unfold Obligations.OutcomesPerUnit
  refine ⟨fun count idx s t h => ?enc, fun n s t h => ?abs, fun s t h => ?delta, fun s t h => ?endMarker,
    fun s t h => ?esc0⟩
  case enc => obtain ⟨-, hstatus, -⟩ := encFrame count idx s t h; exact hstatus.imp And.left And.left
  case abs => obtain ⟨-, hstatus, -⟩ := absFrame n s t h; exact hstatus.imp And.left And.left
  case delta => obtain ⟨-, hstatus, -⟩ := deltaFrame s t h; exact hstatus.imp And.left And.left
  case endMarker => exact Host.Outcome.next.inj h ▸ halt_status .endMarker s
  case esc0 => exact Host.Outcome.next.inj h ▸ halt_status .errInvalidEscape s

end Sys2Proof
end

section
/-! SUPPORT. The relations that every primitive effect of a step keeps (10_state.md R28), each proved closed once,
hence held by every step; and the statements about what a step keeps. -/

namespace Sys2Proof.Machine

/-! ### The invariant -/

/-- A write below a bound keeps every listed cell below it. -/
theorem Memory.bounded_write {α : Type} [DecidableEq α] {m : Memory α} {a n : Nat} {v : α} (ha : a < n)
    (h : ∀ c ∈ m.cells, c.1 < n) : ∀ c ∈ (m.write a v).cells, c.1 < n := fun c hc =>
  (Memory.mem_write hc).elim (fun hca => hca ▸ ha) (h c)

theorem inv_latch {s : State} (h : Inv s) : Inv { s with unitPos := s.pos } := by
  obtain ⟨hwf, hbounded, hcol, hlegal, -, hlen, hend⟩ := h
  exact ⟨hwf, hbounded, hcol, hlegal, le_rfl, hlen, hend⟩

/-- R14, R92: consuming a byte below len keeps the invariant; no byte is consumed under STREAM_EXHAUSTED. -/
theorem inv_byte {s : State} (hlt : s.pos < s.len) (h : Inv s) : Inv { s with pos := s.pos + 1 } := by
  obtain ⟨hwf, hbounded, hcol, hlegal, hunit, -, hend⟩ := h
  exact ⟨hwf, hbounded, hcol, hlegal, hunit.trans (Nat.le_succ _), hlt, fun he => absurd (hend he) hlt.ne⟩

/-- R82: a paint keeps the invariant; it writes below dim x dim. -/
theorem inv_painted (i : Byte) {s : State} (hvalid : cursorValid s = true) (h : Inv s) : Inv (painted i s) := by
  obtain ⟨⟨hstream, hpalette, hrgb, halpha, hindex⟩, ⟨brgb, balpha, bindex⟩, -, hlegal, hpos⟩ := h
  have haddr := cursorAddr_lt hvalid
  have hcol := (painted_addr i ((cursorValid_iff s).1 hvalid).2).2
  rw [painted_frame] at hcol ⊢
  simp only [painted_rgb, painted_alpha, painted_index] at hcol ⊢
  exact ⟨⟨hstream, hpalette, Memory.wf_write _ _ hrgb, Memory.wf_write _ _ halpha, Memory.wf_write _ _ hindex⟩,
    ⟨Memory.bounded_write haddr brgb, Memory.bounded_write haddr balpha, Memory.bounded_write haddr bindex⟩,
    fun _ => hcol, hlegal, hpos⟩

/-- R72: a jump keeps the column inside the image, by the clamp. -/
theorem inv_jump (dX dY : Byte) {s : State} (hstarted : s.status ≠ .idle) (h : Inv s) : Inv (jump dX dY s) := by
  obtain ⟨hwf, hbounded, hcol, hlegal, hpos⟩ := h
  have hcol' : (jump dX dY s).col.toNat < s.dim.toNat := by
    have := hcol hstarted
    rw [jump_col_toNat]
    split <;> omega
  rw [jump_frame]
  exact ⟨hwf, hbounded, fun _ => hcol', hlegal, hpos⟩

/-- R94, R127: each halt a step can take keeps the invariant. -/
theorem inv_halt {c : Status} {s : State} (hc : haltAllowed c s) (hstarted : s.status ≠ .idle) (h : Inv s) :
    Inv (halt c s) ∧ c ≠ .idle := by
  obtain ⟨hwf, hbounded, hcol, -, hunit, hlen, -⟩ := h
  have hhalt : c.isHalt = true ∧ (c = .streamExhausted → s.len ≤ s.pos) := by
    obtain rfl | rfl | ⟨rfl, hend⟩ | ⟨rfl, -⟩ := hc <;> simp [Status.isHalt]
    exact hend
  obtain ⟨hisHalt, hend⟩ := hhalt
  have hne (d : Status) (hd : d.isHalt = false) : c ≠ d := fun e => by rw [e, hd] at hisHalt; cases hisHalt
  exact ⟨⟨hwf, hbounded, fun _ => hcol hstarted,
    ⟨hne _ rfl, fun _ => rfl, fun hn => absurd hisHalt (Bool.eq_false_iff.1 hn)⟩,
    hunit, hlen, fun he => le_antisymm hlen (hend he)⟩, hne _ rfl⟩

/-- Once a session has started, each primitive effect keeps the invariant and the session started. -/
theorem invariant_closed :
    StepClosed fun s t => Inv s ∧ s.status ≠ .idle → Inv t ∧ t.status ≠ .idle where
  refl _ h := h
  trans hst htu h := htu (hst h)
  latch _ h := ⟨inv_latch h.1, h.2⟩
  byte _ hlt h := ⟨inv_byte hlt h.1, h.2⟩
  paint i s hvalid h := ⟨inv_painted i hvalid h.1, (painted_status i s).symm ▸ h.2⟩
  jump dX dY s h := ⟨inv_jump dX dY h.2 h.1, (jump_status dX dY s).symm ▸ h.2⟩
  halt _ _ hc h := inv_halt hc h.2 h.1

/-! ### The planes and the palette -/

theorem paletteEntry_congr {s t : State} (hpalette : t.palette = s.palette) (hepoch : t.paletteEpoch = s.paletteEpoch) :
    paletteEntry t = paletteEntry s := by
  funext i
  rw [paletteEntry, paletteEntry, hpalette, hepoch]

/-- R28 (f) is about the planes, the palette and the epoch only. -/
theorem planesMatchPalette_congr {s t : State} (hrgb : t.rgb = s.rgb) (halpha : t.alpha = s.alpha)
    (hindex : t.index = s.index) (hpalette : t.palette = s.palette) (hepoch : t.paletteEpoch = s.paletteEpoch)
    (h : planesMatchPalette s) : planesMatchPalette t := by
  rw [planesMatchPalette, hrgb, halpha, hindex, paletteEntry_congr hpalette hepoch]
  exact h

/-- R82: a paint writes an index together with its palette entry. -/
theorem planesMatchPalette_painted (i : Byte) {s : State} (h : planesMatchPalette s) :
    planesMatchPalette (painted i s) := by
  intro a
  obtain ⟨hrgb, halpha⟩ := h a
  rw [paletteEntry_painted, painted_rgb, painted_alpha, painted_index, Memory.read_write, Memory.read_write,
    Memory.read_write]
  split
  · exact ⟨rfl, rfl⟩
  · exact ⟨hrgb, halpha⟩

theorem planesMatchPalette_closed : StepClosed fun s t => planesMatchPalette s → planesMatchPalette t where
  refl _ h := h
  trans hst htu h := htu (hst h)
  latch _ h := h
  byte _ _ h := h
  paint i _ _ h := planesMatchPalette_painted i h
  jump dX dY s h := planesMatchPalette_congr (jump_rgb dX dY s) (jump_alpha dX dY s) (jump_index dX dY s)
    (jump_palette dX dY s) (jump_paletteEpoch dX dY s) h
  halt _ _ _ h := h

/-! ### The cursor row and the read position -/

/-- R28 (b), (c): row and pos do not decrease, and pos stays at or below len. -/
def rowAndPosGrow (s t : State) : Prop := s.row ≤ t.row ∧ s.pos ≤ t.pos ∧ (s.pos ≤ s.len → t.pos ≤ t.len)

theorem rowAndPosGrow_closed : StepClosed rowAndPosGrow where
  refl _ := ⟨le_rfl, le_rfl, id⟩
  trans := fun ⟨hrow, hpos, hlen⟩ ⟨hrow', hpos', hlen'⟩ => ⟨hrow.trans hrow', hpos.trans hpos', hlen' ∘ hlen⟩
  latch _ := ⟨le_rfl, le_rfl, id⟩
  byte _ hlt := ⟨le_rfl, Nat.le_succ _, fun _ => hlt⟩
  paint i s _ := by
    rw [rowAndPosGrow, advance_row, advance_pos, advance_len]
    exact ⟨by split <;> simp, le_rfl, id⟩
  jump dX dY s := by
    rw [rowAndPosGrow, jump_row, jump_pos, jump_len]
    exact ⟨Nat.le_add_right _ _, le_rfl, id⟩
  halt _ _ _ := ⟨le_rfl, le_rfl, id⟩

/-! ### Configuration, memories and latches -/

/-- R10, R23, R24, R44: only the cursor, the positions, status, phase and the planes differ. -/
def sameConfiguration (s t : State) : Prop :=
  t = { s with
    row := t.row, col := t.col, pos := t.pos, unitPos := t.unitPos, status := t.status, phase := t.phase,
    rgb := t.rgb, alpha := t.alpha, index := t.index }

theorem sameConfiguration_closed : StepClosed sameConfiguration where
  refl _ := rfl
  trans {s t u} hst htu := by rw [sameConfiguration, htu, hst]
  latch _ := rfl
  byte _ _ := rfl
  paint i s _ := by
    have hframe := painted_frame i s
    rw [sameConfiguration, ← painted, hframe]
  jump dX dY s := by rw [sameConfiguration, jump_frame]
  halt _ _ _ := rfl

/-! ### Addresses outside the buffer -/

/-- R83: dim and every plane address at or past dim * dim stand. -/
def sameOutsideBuffer (s t : State) : Prop :=
  t.dim = s.dim ∧ ∀ a, s.dim.toNat * s.dim.toNat ≤ a → samePixelAt a s t

theorem sameOutsideBuffer_painted (i : Byte) {s : State} (hvalid : cursorValid s = true) :
    sameOutsideBuffer s (painted i s) := by
  refine ⟨painted_dim i s, fun a ha => ?_⟩
  have hne : cursorAddr s ≠ a := ((cursorAddr_lt hvalid).trans_le ha).ne
  rw [samePixelAt, painted_rgb, painted_alpha, painted_index, Memory.read_write_other _ _ hne,
    Memory.read_write_other _ _ hne, Memory.read_write_other _ _ hne]
  exact ⟨rfl, rfl, rfl⟩

theorem sameOutsideBuffer_closed : StepClosed sameOutsideBuffer where
  refl _ := ⟨rfl, fun _ _ => ⟨rfl, rfl, rfl⟩⟩
  trans {s t u} hst htu := by
    obtain ⟨hdim, hcells⟩ := hst
    obtain ⟨hdim', hcells'⟩ := htu
    refine ⟨hdim'.trans hdim, fun a ha => ?_⟩
    obtain ⟨hrgb, halpha, hindex⟩ := hcells a ha
    obtain ⟨hrgb', halpha', hindex'⟩ := hcells' a (hdim ▸ ha)
    exact ⟨hrgb'.trans hrgb, halpha'.trans halpha, hindex'.trans hindex⟩
  latch _ := ⟨rfl, fun _ _ => ⟨rfl, rfl, rfl⟩⟩
  byte _ _ := ⟨rfl, fun _ _ => ⟨rfl, rfl, rfl⟩⟩
  paint i _ hvalid := sameOutsideBuffer_painted i hvalid
  jump dX dY s := by
    rw [sameOutsideBuffer, jump_dim]
    simp only [samePixelAt, jump_rgb, jump_alpha, jump_index, and_self, implies_true]
  halt _ _ _ := ⟨rfl, fun _ _ => ⟨rfl, rfl, rfl⟩⟩

end Sys2Proof.Machine

namespace Sys2Proof
open Machine

/-- Settles O34: in a started session each primitive effect keeps the invariant; an idle block does not step. -/
theorem stepKeepsInvariant : Obligations.StepKeepsInvariant := by
  unfold Obligations.StepKeepsInvariant
  intro s t hinv hstep
  by_cases hidle : s.status = .idle
  · rw [step_of_not_running (by rw [hidle]; decide)] at hstep
    exact Host.Outcome.next.inj hstep ▸ hinv
  · exact (step_ends invariant_closed hstep ⟨hinv, hidle⟩).1

/-- Settles O36: the pre-fill is the image of index 0 everywhere, and each primitive effect keeps the image. -/
theorem planesStayImageOfPalette : Obligations.PlanesStayImageOfPalette := by
  unfold Obligations.PlanesStayImageOfPalette
  exact ⟨fun s a => ⟨rfl, rfl⟩, fun s t hmatch hstep => step_ends planesMatchPalette_closed hstep hmatch⟩

/-- Settles O37: each primitive effect keeps the order. -/
theorem rowAndPosNeverDecrease : Obligations.RowAndPosNeverDecrease := by
  unfold Obligations.RowAndPosNeverDecrease
  exact fun s t hstep => step_ends rowAndPosGrow_closed hstep

/-- Settles O39: each primitive effect keeps the configuration. -/
theorem stepKeepsConfiguration : Obligations.StepKeepsConfiguration := by
  unfold Obligations.StepKeepsConfiguration
  exact fun s t hstep => step_ends sameConfiguration_closed hstep

/-- Settles O40: a paint writes at a valid cursor only, and outside RUNNING there is no step. -/
theorem noWriteOutsideBuffer : Obligations.NoWriteOutsideBuffer := by
  unfold Obligations.NoWriteOutsideBuffer
  intro s t hstep
  refine ⟨(step_ends sameOutsideBuffer_closed hstep).2, fun hstopped => ?_⟩
  rw [step_of_not_running hstopped] at hstep
  exact Host.Outcome.next.inj hstep ▸ ⟨rfl, rfl, rfl⟩

end Sys2Proof
end

section
/-! SUPPORT. How a session goes on and ends (42_sequencer.md R90 to R99, 60_exceptions.md R121 to R130): which halt a
unit can take, how far one that takes none moves pos, the faults, and runs of many steps. -/

namespace Sys2Proof.Machine

/-! ### How one unit ends -/

/-- R94, R126: a unit leaves status, or takes one of four halts, each with its cause. -/
theorem exec_status_cases {i : Instr} {s t : State} (h : exec i s = .next t) :
    t.status = s.status ∨ (t.status = .endMarker ∧ i = .endMarker) ∨ (t.status = .streamExhausted ∧ t.len ≤ t.pos) ∨
      (t.status = .errInvalidEscape ∧ i = .esc0) ∨ (t.status = .errRowOverflow ∧ cursorValid t = false) := by
  cases i with
  | esc0 => exact .inr (.inr (.inr (.inl ⟨Host.Outcome.next.inj h ▸ rfl, rfl⟩)))
  | endMarker => exact .inr (.inl ⟨Host.Outcome.next.inj h ▸ rfl, rfl⟩)
  | delta =>
    obtain ⟨dX, dY, -, rfl⟩ | ⟨p, hend, rfl⟩ := exec_delta_cases h
    · exact .inl (jump_status dX dY _)
    · exact .inr (.inr (.inl ⟨rfl, hend⟩))
  | abs n =>
    obtain ⟨lits, -, -, ⟨-, rfl⟩ | ⟨hend, rfl⟩ | ⟨-, hinvalid, rfl⟩⟩ := exec_abs_cases h
    · exact .inl (paintedAll_status lits s)
    · exact .inr (.inr (.inl ⟨rfl, (paintedAll_len lits s).trans_le hend⟩))
    · exact .inr (.inr (.inr (.inr ⟨rfl, hinvalid⟩)))
  | enc count idx =>
    obtain ⟨k, -, -, rfl | ⟨hinvalid, rfl⟩⟩ := exec_enc_cases h
    · exact .inl (paintedAll_status _ s)
    · exact .inr (.inr (.inr (.inr ⟨rfl, hinvalid⟩)))

/-- R58, R99: a unit that leaves the block running consumed its operand bytes, and unit_pos stands. -/
theorem exec_positions_of_running {i : Instr} {s t : State} (h : exec i s = .next t) (hrun : t.status = .running) :
    t.unitPos = s.unitPos ∧ t.pos = s.pos + i.operandCount := by
  have hhalt {c : Status} {u : State} (ht : t = halt c u) (hc : c ≠ .running) : False :=
    hc ((ht ▸ halt_status c u).symm.trans hrun)
  cases i with
  | esc0 => exact (hhalt (Host.Outcome.next.inj h).symm (by decide)).elim
  | endMarker => exact (hhalt (Host.Outcome.next.inj h).symm (by decide)).elim
  | delta =>
    obtain ⟨dX, dY, -, rfl⟩ | ⟨p, -, ht⟩ := exec_delta_cases h
    · exact ⟨jump_unitPos dX dY _, jump_pos dX dY _⟩
    · exact (hhalt ht (by decide)).elim
  | abs n =>
    obtain ⟨lits, -, -, ⟨hlen, rfl⟩ | ⟨-, ht⟩ | ⟨-, -, ht⟩⟩ := exec_abs_cases h
    · exact ⟨paintedAll_unitPos lits s, congrArg (s.pos + ·) hlen⟩
    · exact (hhalt ht (by decide)).elim
    · exact (hhalt ht (by decide)).elim
  | enc count idx =>
    obtain ⟨k, -, -, rfl | ⟨-, ht⟩⟩ := exec_enc_cases h
    · exact ⟨paintedAll_unitPos _ s, paintedAll_pos _ s⟩
    · exact (hhalt ht (by decide)).elim

/-! ### The model's one fault (log entry 5) -/

/-- The fault names an address from pos on, below len, that nobody loaded. -/
def faultsAhead (s : State) (f : Fault) : Prop :=
  ∃ a, f = .streamNotLoaded a ∧ s.pos ≤ a ∧ a < s.len ∧ s.stream.read a = none

theorem exec_fault {i : Instr} {s : State} {f : Fault} (h : exec i s = .fault f) : faultsAhead s f := by
  cases i with
  | esc0 => cases h
  | endMarker => cases h
  | delta =>
    obtain ⟨-, hfetch⟩ | ⟨b, -, -, hfetch⟩ | ⟨dX, dY, -, hfetch⟩ | ⟨a, hle, hlt, hread, hfetch⟩ := fetchDelta_cases s
    · cases h.symm.trans (exec_delta_of_halted hfetch)
    · cases h.symm.trans (exec_delta_of_halted hfetch)
    · cases h.symm.trans (exec_delta_of_fetched hfetch)
    · cases h.symm.trans (exec_delta_of_fault hfetch)
      exact ⟨a, rfl, hle, hlt, hread⟩
  | abs n =>
    obtain ⟨lits, -, -, -, hend⟩ := paintLiterals_cases (n.toNat - 2) s
    rw [exec_abs_of_count rfl] at h
    generalize paintLiterals (n.toNat - 2) s = g at h hend
    cases hend with
    | notLoaded _ hlt hread =>
      cases h
      exact ⟨_, rfl, Nat.le_add_right _ _, hlt, hread⟩
    | done | exhausted | overflow => cases h
  | enc count idx =>
    obtain ⟨k, -, -, ⟨-, hend⟩ | ⟨-, hend⟩⟩ := paintRun_cases idx count.toNat s
    · cases h.symm.trans (congrArg Flow.outcome hend)
    · cases h.symm.trans (congrArg Flow.outcome hend)

theorem step_fault {s : State} {f : Fault} (h : step s = .fault f) : s.status = .running ∧ faultsAhead s f := by
  by_cases hrun : s.status = .running
  · refine ⟨hrun, ?_⟩
    obtain ⟨-, hstep⟩ | ⟨b, -, -, hstep⟩ | ⟨b0, b1, -, hstep⟩ | ⟨a, hle, hlt, hread, hstep⟩ := step_cases hrun
    · cases h.symm.trans hstep
    · cases h.symm.trans hstep
    · obtain ⟨a, hf, hle, hlt, hread⟩ := exec_fault (hstep.symm.trans h)
      exact ⟨a, hf, (Nat.le_add_right _ 2).trans hle, hlt, hread⟩
    · cases h.symm.trans hstep
      exact ⟨a, rfl, hle, hlt, hread⟩
  · cases h.symm.trans (step_of_not_running hrun)

theorem step_not_refused (s : State) (r : Refusal) : step s ≠ .refused r := by
  intro h
  by_cases hrun : s.status = .running
  · obtain ⟨-, hstep⟩ | ⟨b, -, -, hstep⟩ | ⟨b0, b1, -, hstep⟩ | ⟨a, -, -, -, hstep⟩ := step_cases hrun
    · cases h.symm.trans hstep
    · cases h.symm.trans hstep
    · exact exec_not_refused _ _ r (hstep.symm.trans h)
    · cases h.symm.trans hstep
  · cases h.symm.trans (step_of_not_running hrun)

/-- R149: with the stream loaded there is nothing to fault at. -/
theorem step_of_streamLoaded {s : State} (h : streamLoaded s) : ∃ t, step s = .next t := by
  cases hstep : step s with
  | next t => exact ⟨t, rfl⟩
  | fault f =>
    obtain ⟨-, a, -, -, hlt, hread⟩ := step_fault hstep
    have hsome := h a hlt
    rw [hread] at hsome
    cases hsome
  | refused r => exact absurd hstep (step_not_refused s r)

/-! ### One step of a running block -/

/-- R94, R99: after a step of a running block status is a halt code, or the block runs on and two bytes or more that
were there are consumed. -/
theorem step_halts_or_consumes {s t : State} (hrun : s.status = .running) (h : step s = .next t) :
    t.status.isHalt = true ∨ t.status = .running ∧ s.pos + 2 ≤ t.pos ∧ s.pos + 2 ≤ s.len := by
  obtain ⟨-, hstep⟩ | ⟨b, -, -, hstep⟩ | ⟨b0, b1, hready, hstep⟩ | ⟨a, -, -, -, hstep⟩ := step_cases hrun
  · exact .inl (Host.Outcome.next.inj (h.symm.trans hstep) ▸ rfl)
  · exact .inl (Host.Outcome.next.inj (h.symm.trans hstep) ▸ rfl)
  · have hexec := hstep.symm.trans h
    obtain hs | ⟨hs, -⟩ | ⟨hs, -⟩ | ⟨hs, -⟩ | ⟨hs, -⟩ := exec_status_cases hexec
    · have ht := hs.trans hrun
      obtain ⟨-, hpos⟩ := exec_positions_of_running hexec ht
      exact .inr ⟨ht, hpos ▸ Nat.le_add_right _ _, hready.1⟩
    all_goals exact .inl (hs ▸ rfl)
  · cases h.symm.trans hstep

/-- R57: inside its row a jump by nothing leaves the cursor. -/
theorem jump_zero_zero {s : State} (h : s.col.toNat < s.dim.toNat) : jump 0#8 0#8 s = s := by
  have hcol : (jump 0#8 0#8 s).col = s.col :=
    BitVec.eq_of_toNat_eq ((jump_col_toNat 0#8 0#8 s).trans (if_neg h.not_ge))
  rw [jump_frame, hcol]
  rfl

/-! ### Many steps -/

/-- A run of the host's machine is a run of the unit step. -/
theorem run_eq_runWith (k : Nat) (s : State) : Host.Core.run core k s = runWith step k s := by
  induction k generalizing s with
  | zero => rfl
  | succ k ih =>
    simp only [Host.Core.run, runWith, show core.step s = step s from rfl]
    cases step s with
    | next t => exact ih t
    | fault f => rfl
    | refused r => rfl

theorem runWith_succ_of_next {f : State → Host.Outcome State Fault Refusal} (k : Nat) {s t : State}
    (h : f s = .next t) : runWith f (k + 1) s = runWith f k t := by
  rw [runWith, h]

/-- R90, R96: outside RUNNING nothing changes, however long. -/
theorem runWith_step_of_not_running (k : Nat) {s : State} (h : s.status ≠ .running) : runWith step k s = .next s := by
  induction k with
  | zero => rfl
  | succ k ih => rw [runWith_succ_of_next k (step_of_not_running h), ih]

theorem not_running_of_isHalt {s : State} (h : s.status.isHalt = true) : s.status ≠ .running := by
  intro hrun
  rw [hrun] at h
  cases h

/-- R23: a step keeps a loaded stream loaded. -/
theorem streamLoaded_of_step {s t : State} (h : step s = .next t) (hloaded : streamLoaded s) : streamLoaded t := by
  have hsame : sameConfiguration s t := step_ends sameConfiguration_closed h
  rw [hsame]
  exact hloaded

theorem len_of_step {s t : State} (h : step s = .next t) : t.len = s.len := by
  have hsame : sameConfiguration s t := step_ends sameConfiguration_closed h
  rw [hsame]

/-- R28 (h), R91: each step that does not halt consumes two of the bytes left, so half of them and one step are
enough. -/
theorem runWith_step_halts {s : State} (k : Nat) (hrun : s.status = .running) (hloaded : streamLoaded s)
    (hk : (s.len - s.pos) / 2 + 1 ≤ k) : ∃ t, runWith step k s = .next t ∧ t.status.isHalt = true := by
  induction k generalizing s with
  | zero => omega
  | succ k ih =>
    obtain ⟨t, hstep⟩ := step_of_streamLoaded hloaded
    rw [runWith_succ_of_next k hstep]
    obtain hhalt | ⟨hrun', hpos, hlen⟩ := step_halts_or_consumes hrun hstep
    · exact ⟨t, runWith_step_of_not_running k (not_running_of_isHalt hhalt), hhalt⟩
    · have hlen' := len_of_step hstep
      exact ih hrun' (streamLoaded_of_step hstep hloaded) (by omega)

end Sys2Proof.Machine

namespace Sys2Proof
open Machine

/-- Settles O38: the bytes left are the measure of a session. -/
theorem everySessionHalts : Obligations.EverySessionHalts := by
  unfold Obligations.EverySessionHalts
  intro s k hrun hloaded hk
  rw [run_eq_runWith]
  exact runWith_step_halts k hrun hloaded hk

/-- Settles O9: the first two ways a step of a running block can end, told apart by the bytes left. -/
theorem stepAtEndOfStream : Obligations.StepAtEndOfStream := by
  unfold Obligations.StepAtEndOfStream
  refine ⟨fun s hrun hend => ?noByte, fun s b0 hrun hlast hready => ?loneByte⟩
  case noByte => rw [step, if_pos hrun, fetchHeader, if_pos hend, halt]
  case loneByte =>
    have hfetch := fetchDelta_of_last_byte (s := { s with unitPos := s.pos }) hready hlast
    rw [step, if_pos hrun, fetchHeader_of_lt (by omega), hfetch, show s.len - 1 = s.pos by omega]
    rfl

/-- Settles O10: a step of a running block halts or moves pos on. -/
theorem stepExactlyWhileRunning : Obligations.StepExactlyWhileRunning := by
  unfold Obligations.StepExactlyWhileRunning
  refine ⟨fun s => step_of_not_running, fun s t hrun hstep heq => ?_⟩
  subst heq
  obtain hhalt | ⟨-, hpos, -⟩ := step_halts_or_consumes hrun hstep
  · exact not_running_of_isHalt hhalt hrun
  · omega

/-- Settles O12: the header's two bytes, then the operands of a unit that leaves the block running. -/
theorem controlIsStraightLine : Obligations.ControlIsStraightLine := by
  unfold Obligations.ControlIsStraightLine
  intro s t b0 b1 hrun hready hstep hrun'
  obtain ⟨hunit, hpos⟩ := exec_positions_of_running ((step_of_bytesReady hrun hready).symm.trans hstep) hrun'
  exact ⟨hunit, hpos.trans (Nat.add_assoc _ _ _)⟩

/-- Settles O29: the step's own two halts, then those of the unit its header decodes to. -/
theorem sessionEndsInOneOfFourWays : Obligations.SessionEndsInOneOfFourWays := by
  unfold Obligations.SessionEndsInOneOfFourWays
  intro s t hrun h
  obtain ⟨hend, hstep⟩ | ⟨b, -, -, hstep⟩ | ⟨b0, b1, hready, hstep⟩ | ⟨a, -, -, -, hstep⟩ := step_cases hrun
  · exact .inr (.inr (.inl (Host.Outcome.next.inj (h.symm.trans hstep) ▸ ⟨rfl, hend⟩)))
  · exact .inr (.inr (.inl (Host.Outcome.next.inj (h.symm.trans hstep) ▸ ⟨rfl, le_rfl⟩)))
  · have hbytes {i : Instr} (hi : decode b0 b1 = i) : bytesReady s [(encode i).1, (encode i).2] := by
      rw [← hi, (wellFormed_decode_and_encode_decode b0 b1).2]
      exact hready
    exact (exec_status_cases (hstep.symm.trans h)).imp (fun hs => hs.trans hrun)
      (.imp (.imp_right hbytes) (.imp_right (.imp_left (.imp_right hbytes))))
  · cases h.symm.trans hstep

/-- Settles O30: a halt code is not RUNNING. -/
theorem haltIsTerminal : Obligations.HaltIsTerminal := by
  unfold Obligations.HaltIsTerminal
  exact fun k s h => (run_eq_runWith k s).trans (runWith_step_of_not_running k (not_running_of_isHalt h))

/-- Settles O31: every fault comes from a byte fetch, and each fetch faults at an unloaded byte when its turn comes. -/
theorem unloadedByteFaults : Obligations.UnloadedByteFaults := by
  unfold Obligations.UnloadedByteFaults
  refine ⟨fun s f h => ?anyFault, step_not_refused, fun s => nextByte_of_unloaded, fun s hrun hlt hread => ?b0,
    fun s b0 hrun hready hlt hread => ?b1, fun s hlt hread => ?dX, fun s dX hready hlt hread => ?dY,
    fun n lits s hlen hready hlt hread hroom => ?literal⟩
  case anyFault =>
    obtain ⟨hrun, a, hf, hahead⟩ := step_fault h
    exact ⟨a, hf, hrun, hahead⟩
  case b0 =>
    exact step_of_fetchHeader_fault hrun
      ((fetchHeader_of_lt hlt).trans (fetchDelta_of_unloaded_first (s := { s with unitPos := s.pos }) hlt hread))
  case b1 =>
    exact step_of_fetchHeader_fault hrun ((fetchHeader_of_lt (Nat.lt_of_succ_lt hlt)).trans
      (fetchDelta_of_unloaded_second (s := { s with unitPos := s.pos }) hready hlt hread))
  case dX => exact exec_delta_of_fault (fetchDelta_of_unloaded_first hlt hread)
  case dY => exact exec_delta_of_fault (fetchDelta_of_unloaded_second hready hlt hread)
  case literal =>
    obtain ⟨m, hm⟩ := Nat.exists_eq_add_of_lt hlen
    have hfault : nextByte (afterLiterals lits s) = .fault (.streamNotLoaded (s.pos + lits.length)) :=
      nextByte_of_unloaded (hlt.trans_eq (paintedAll_len lits s).symm)
        ((congrArg (Memory.read · _) (paintedAll_stream lits s)).trans hread)
    rw [exec_abs_of_count hm, Nat.add_assoc,
      paintLiterals_of_room (m + 1) hready (hroom.imp_left List.length_eq_zero_iff.2), ← afterLiterals, paintLiterals,
      hfault, Flow.andThen_fault, Flow.outcome_fault]

/-- Settles O32: a fault would name a byte nobody loaded. -/
theorem loadedStreamAlwaysSteps : Obligations.LoadedStreamAlwaysSteps := by
  unfold Obligations.LoadedStreamAlwaysSteps
  exact fun s hloaded => step_of_streamLoaded hloaded

/-- Settles O8: the header of a well-formed instruction decodes to it. -/
theorem stepRunsDecodedUnit : Obligations.StepRunsDecodedUnit := by
  unfold Obligations.StepRunsDecodedUnit
  intro s i hrun hwf hready
  rw [step_of_bytesReady hrun hready, decode_encode hwf]

/-- Settles O25: inside its row the cursor stands under a jump by nothing. -/
theorem deltaZeroOnlyMovesOn : Obligations.DeltaZeroOnlyMovesOn := by
  unfold Obligations.DeltaZeroOnlyMovesOn
  intro s hrun hcol hready
  obtain ⟨-, hoperands⟩ := bytesReady_append (bs := [0x00#8, 0x02#8]) (cs := [0x00#8, 0x00#8]) hready
  have hfetch := fetchDelta_of_bytesReady (s := { s with unitPos := s.pos, pos := s.pos + 2 }) hoperands
  rw [step_of_bytesReady hrun hready, decode_zero_two, exec_delta_of_fetched hfetch]
  exact congrArg Host.Outcome.next (jump_zero_zero (s := { s with unitPos := s.pos, pos := s.pos + 4 }) hcol)

end Sys2Proof
end

section
/-! SUPPORT. The unit step as one flow of operations, and the principle that a property of flows which the primitive
operations have and sequencing keeps is had by every unit step. From it: the step over a saturated row (10_state.md
R12), over other planes (R19) and over another stream memory (42_sequencer.md R96). -/

namespace Sys2Proof.Machine

/-! ### The unit step as a flow -/

/-- The meaning of a unit, before its outcome is taken. -/
def execFlow : Instr → State → Flow Unit
  | .esc0, s => .stop (halt .errInvalidEscape s)
  | .endMarker, s => .stop (halt .endMarker s)
  | .delta, s => (fetchDelta s).andThen fun d s1 => .go () (jump d.1 d.2 s1)
  | .abs n, s => paintLiterals (absCount n) s
  | .enc count idx, s => paintRun idx (encCount count) s

theorem exec_eq_outcome (i : Instr) (s : State) : exec i s = (execFlow i s).outcome := by
  cases i <;> rfl

/-- The test for the end of the stream at a unit boundary, and the latching of unit_pos (R91). -/
def latchUnitPos (s : State) : Flow Unit :=
  if s.len ≤ s.pos then .stop (halt .streamExhausted s) else .go () { s with unitPos := s.pos }

/-- The header fetch is that test and the two fetches that `DELTA` makes too. -/
theorem fetchHeader_eq (s : State) : fetchHeader s = (latchUnitPos s).andThen fun _ s1 => fetchDelta s1 := by
  rw [fetchHeader, latchUnitPos]
  split <;> rfl

/-- The unit step of a running block (R91). -/
def unitFlow (s : State) : Flow Unit :=
  (latchUnitPos s).andThen fun _ s1 => (fetchDelta s1).andThen fun h s2 => execFlow (decode h.1 h.2) s2

theorem Flow.andThen_assoc {α β γ : Type} (f : Flow α) (k : α → State → Flow β) (l : β → State → Flow γ) :
    (f.andThen k).andThen l = f.andThen fun a s => (k a s).andThen l := by
  cases f <;> rfl

theorem step_eq_unitFlow {s : State} (hrun : s.status = .running) : step s = (unitFlow s).outcome := by
  rw [step, if_pos hrun, unitFlow, ← Flow.andThen_assoc, ← fetchHeader_eq]
  cases fetchHeader s with
  | go h s1 => exact exec_eq_outcome _ s1
  | stop s1 => rfl
  | fault f => rfl

/-! ### Properties of flows that every unit step has -/

/-- A property of operations that the primitive ones have and that sequencing keeps. -/
structure FlowClosed (C : (α : Type) → (State → Flow α) → Prop) : Prop where
  pure : ∀ {α : Type} (a : α), C α (Flow.go a)
  andThen : ∀ {α β : Type} {f : State → Flow α} {k : α → State → Flow β},
    C α f → (∀ a, C β (k a)) → C β fun s => (f s).andThen k
  latchUnitPos : C Unit latchUnitPos
  nextByte : C Byte nextByte
  paint : ∀ i, C Unit (paint i)
  jump : ∀ dX dY, C Unit fun s => .go () (jump dX dY s)
  halt : ∀ c, C Unit fun s => .stop (halt c s)

section
variable {C : (α : Type) → (State → Flow α) → Prop}

theorem FlowClosed.paintRun (hC : FlowClosed C) (idx : Byte) (n : Nat) : C Unit (paintRun idx n) := by
  induction n with
  | zero => exact hC.pure ()
  | succ n ih => exact hC.andThen (hC.paint idx) fun _ => ih

theorem FlowClosed.paintLiterals (hC : FlowClosed C) (n : Nat) : C Unit (paintLiterals n) := by
  induction n with
  | zero => exact hC.pure ()
  | succ n ih => exact hC.andThen hC.nextByte fun lit => hC.andThen (hC.paint lit) fun _ => ih

theorem FlowClosed.fetchDelta (hC : FlowClosed C) : C (Byte × Byte) fetchDelta :=
  hC.andThen hC.nextByte fun _ => hC.andThen hC.nextByte fun _ => hC.pure _

theorem FlowClosed.execFlow (hC : FlowClosed C) (i : Instr) : C Unit (execFlow i) := by
  cases i with
  | esc0 => exact hC.halt _
  | endMarker => exact hC.halt _
  | delta => exact hC.andThen hC.fetchDelta fun d => hC.jump d.1 d.2
  | abs n => exact hC.paintLiterals _
  | enc count idx => exact hC.paintRun idx _

/-- The one traversal of the unit step. -/
theorem FlowClosed.unitFlow (hC : FlowClosed C) : C Unit unitFlow :=
  hC.andThen hC.latchUnitPos fun _ => hC.andThen hC.fetchDelta fun h => hC.execFlow (decode h.1 h.2)

end

/-! ### Simulations -/

/-- Two flows that end alike, in related states or at the same fault. -/
inductive Flow.Rel {α : Type} (R : State → State → Prop) : Flow α → Flow α → Prop
  | go (a : α) {s t : State} (h : R s t) : Flow.Rel R (.go a s) (.go a t)
  | stop {s t : State} (h : R s t) : Flow.Rel R (.stop s) (.stop t)
  | fault (e : Fault) : Flow.Rel R (.fault e) (.fault e)

theorem Flow.Rel.andThen {α β : Type} {R : State → State → Prop} {f g : Flow α} {k : α → State → Flow β}
    (h : f.Rel R g) (hk : ∀ a s t, R s t → (k a s).Rel R (k a t)) : (f.andThen k).Rel R (g.andThen k) := by
  cases h with
  | go a h => exact hk a _ _ h
  | stop h => exact .stop h
  | fault e => exact .fault e

/-- A relation under which two states take the same branches and every primitive effect leaves related states. -/
structure StepSim (R : State → State → Prop) : Prop where
  status : ∀ {s t}, R s t → t.status = s.status
  len : ∀ {s t}, R s t → t.len = s.len
  pos : ∀ {s t}, R s t → t.pos = s.pos
  stream : ∀ {s t}, R s t → t.stream = s.stream
  valid : ∀ {s t}, R s t → cursorValid t = cursorValid s
  latch : ∀ {s t}, R s t → R { s with unitPos := s.pos } { t with unitPos := t.pos }
  byte : ∀ {s t}, R s t → R { s with pos := s.pos + 1 } { t with pos := t.pos + 1 }
  painted : ∀ i {s t}, cursorValid s = true → R s t → R (painted i s) (painted i t)
  jump : ∀ dX dY {s t}, R s t → R (jump dX dY s) (jump dX dY t)
  halt : ∀ c {s t}, R s t → R (halt c s) (halt c t)

section
variable {R : State → State → Prop}

theorem StepSim.latchUnitPos (hR : StepSim R) {s t : State} (h : R s t) :
    (latchUnitPos s).Rel R (latchUnitPos t) := by
  by_cases hend : s.len ≤ s.pos
  · have hend' : t.len ≤ t.pos := by rwa [hR.len h, hR.pos h]
    rw [Machine.latchUnitPos, Machine.latchUnitPos, if_pos hend, if_pos hend']
    exact .stop (hR.halt _ h)
  · have hend' : ¬ t.len ≤ t.pos := by rwa [hR.len h, hR.pos h]
    rw [Machine.latchUnitPos, Machine.latchUnitPos, if_neg hend, if_neg hend']
    exact .go () (hR.latch h)

theorem StepSim.nextByte (hR : StepSim R) {s t : State} (h : R s t) : (nextByte s).Rel R (nextByte t) := by
  have hread : t.stream.read t.pos = s.stream.read s.pos := by rw [hR.stream h, hR.pos h]
  have hlt : t.pos < t.len ↔ s.pos < s.len := by rw [hR.pos h, hR.len h]
  obtain ⟨hend, e⟩ | ⟨hs, v, hv, e⟩ | ⟨hs, hv, e⟩ := nextByte_cases s <;> rw [e]
  · rw [nextByte_of_end (Nat.le_of_not_lt (hlt.not.2 hend.not_gt))]
    exact .stop (hR.halt _ h)
  · rw [nextByte_of_read (hlt.2 hs) (hread.trans hv)]
    exact .go v (hR.byte h)
  · rw [nextByte_of_unloaded (hlt.2 hs) (hread.trans hv), hR.pos h]
    exact .fault _

theorem StepSim.paint (hR : StepSim R) (i : Byte) {s t : State} (h : R s t) : (paint i s).Rel R (paint i t) := by
  cases hvalid : cursorValid s with
  | true =>
    rw [paint_eq_painted i hvalid, paint_eq_painted i ((hR.valid h).trans hvalid)]
    exact .go () (hR.painted i hvalid h)
  | false =>
    rw [paint_of_invalid i hvalid, paint_of_invalid i ((hR.valid h).trans hvalid)]
    exact .stop (hR.halt _ h)

theorem StepSim.flowClosed (hR : StepSim R) : FlowClosed fun _ f => ∀ s t, R s t → (f s).Rel R (f t) where
  pure a _ _ h := .go a h
  andThen hf hk s t h := (hf s t h).andThen fun a _ _ => hk a _ _
  latchUnitPos _ _ h := hR.latchUnitPos h
  nextByte _ _ h := hR.nextByte h
  paint i _ _ h := hR.paint i h
  jump dX dY _ _ h := .go () (hR.jump dX dY h)
  halt c _ _ h := .stop (hR.halt c h)

/-- Related states step to related states, or fault alike. -/
theorem StepSim.step (hR : StepSim R) {s t : State} (h : R s t) :
    (∃ s' t', step s = .next s' ∧ step t = .next t' ∧ R s' t') ∨ ∃ e, step s = .fault e ∧ step t = .fault e := by
  by_cases hrun : s.status = .running
  · have hrel := hR.flowClosed.unitFlow s t h
    rw [step_eq_unitFlow hrun, step_eq_unitFlow ((hR.status h).trans hrun)]
    generalize unitFlow s = f, unitFlow t = g at hrel
    cases hrel with
    | go a h' => exact .inl ⟨_, _, rfl, rfl, h'⟩
    | stop h' => exact .inl ⟨_, _, rfl, rfl, h'⟩
    | fault e => exact .inr ⟨e, rfl, rfl⟩
  · exact .inl ⟨s, t, step_of_not_running hrun, step_of_not_running (hR.status h ▸ hrun), h⟩

end

/-! ### Changes of state that the cursor's moves do not see -/

/-- The cursor set. -/
def withCursor (r : Nat) (c : Word16) (s : State) : State := { s with row := r, col := c }

theorem advance_eq_withCursor (s : State) : advance s = withCursor (advance s).row (advance s).col s := by
  unfold advance
  split <;> rfl

theorem jump_eq_withCursor (dX dY : Byte) (s : State) :
    jump dX dY s = withCursor (jump dX dY s).row (jump dX dY s).col s := by
  unfold jump
  split <;> rfl

/-- A change of state that keeps the cursor and dim and commutes with setting the cursor. -/
structure IgnoresCursor (g : State → State) : Prop where
  row : ∀ s, (g s).row = s.row
  col : ∀ s, (g s).col = s.col
  dim : ∀ s, (g s).dim = s.dim
  set : ∀ r c s, withCursor r c (g s) = g (withCursor r c s)

/-- R71: an advance sets the cursor from the cursor and dim. -/
theorem IgnoresCursor.advance {g : State → State} (hg : IgnoresCursor g) (s : State) :
    advance (g s) = g (advance s) := by
  rw [advance_eq_withCursor (g s), advance_row, advance_col, hg.row, hg.col, hg.dim, hg.set, ← advance_row,
    ← advance_col, ← advance_eq_withCursor]

/-- R72: a jump sets the cursor from the cursor and dim. -/
theorem IgnoresCursor.jump {g : State → State} (hg : IgnoresCursor g) (dX dY : Byte) (s : State) :
    jump dX dY (g s) = g (jump dX dY s) := by
  rw [jump_eq_withCursor dX dY (g s), jump_row, jump_col, hg.row, hg.col, hg.dim, hg.set, ← jump_row dX,
    ← jump_col dX dY, ← jump_eq_withCursor]

/-! ### Other planes (R19) -/

theorem withPlanesOf_ignoresCursor (p : State) : IgnoresCursor (withPlanesOf p) :=
  ⟨fun _ => rfl, fun _ => rfl, fun _ => rfl, fun _ _ _ => rfl⟩

theorem painted_eq_withPlanesOf (i : Byte) (s : State) :
    painted i s = withPlanesOf (writePixel (cursorAddr s) (resolve s i) s) (advance s) :=
  (withPlanesOf_ignoresCursor (writePixel (cursorAddr s) (resolve s i) s)).advance s

/-- The second state is the first with some other planes. -/
def differInPlanes (s t : State) : Prop := ∃ p, t = withPlanesOf p s

theorem differInPlanes_sim : StepSim differInPlanes where
  status := by rintro s _ ⟨p, rfl⟩; rfl
  len := by rintro s _ ⟨p, rfl⟩; rfl
  pos := by rintro s _ ⟨p, rfl⟩; rfl
  stream := by rintro s _ ⟨p, rfl⟩; rfl
  valid := by rintro s _ ⟨p, rfl⟩; rfl
  latch := by rintro s _ ⟨p, rfl⟩; exact ⟨p, rfl⟩
  byte := by rintro s _ ⟨p, rfl⟩; exact ⟨p, rfl⟩
  painted := by
    rintro i s _ - ⟨p, rfl⟩
    rw [painted_eq_withPlanesOf, painted_eq_withPlanesOf, (withPlanesOf_ignoresCursor p).advance]
    exact ⟨_, rfl⟩
  jump := by rintro dX dY s _ ⟨p, rfl⟩; exact ⟨p, (withPlanesOf_ignoresCursor p).jump dX dY s⟩
  halt := by rintro c s _ ⟨p, rfl⟩; exact ⟨p, rfl⟩

/-! ### A saturated row (R12) -/

/-- The states are the same but for rows that saturate alike. -/
def sameSaturated (rowW : Nat) (s t : State) : Prop := saturateRow rowW t = saturateRow rowW s

theorem sameSaturated.congr {β : Type} {rowW : Nat} {s t : State} (h : sameSaturated rowW s t) (f : State → β) :
    f (saturateRow rowW t) = f (saturateRow rowW s) :=
  congrArg f h

theorem sameSaturated_saturateRow (rowW : Nat) (s : State) : sameSaturated rowW s (saturateRow rowW s) := by
  simp only [sameSaturated, saturateRow, min_self, min_assoc]

/-- R72: saturation before the addition of a jump does not show after it. -/
theorem saturateRow_jump (rowW : Nat) (dX dY : Byte) (s : State) :
    saturateRow rowW (jump dX dY (saturateRow rowW s)) = saturateRow rowW (jump dX dY s) := by
  have hrow : min (min s.row (2 ^ rowW - 1) + dY.toNat) (2 ^ rowW - 1) = min (s.row + dY.toNat) (2 ^ rowW - 1) := by
    omega
  have hcol : (jump dX dY (saturateRow rowW s)).col = (jump dX dY s).col := by
    rw [jump_col, jump_col]
    rfl
  rw [jump_frame, hcol, jump_frame dX dY s]
  simp only [saturateRow, hrow]

/-- R12: a valid cursor's row is below the saturation value, so a state that saturates alike is the same state. -/
theorem eq_of_sameSaturated {rowW : Nat} (hw : 16 ≤ rowW) {s t : State} (hvalid : cursorValid s = true)
    (h : sameSaturated rowW s t) : t = s := by
  have hd := s.dim.isLt
  have hpow : 2 ^ 16 ≤ 2 ^ rowW := Nat.pow_le_pow_right two_pos hw
  have hlt := ((cursorValid_iff s).1 hvalid).1
  have hmin : min t.row (2 ^ rowW - 1) = min s.row (2 ^ rowW - 1) := congrArg State.row h
  have hrow : t.row = s.row := by omega
  calc t = { saturateRow rowW t with row := t.row } := rfl
    _ = { saturateRow rowW s with row := s.row } := by rw [show saturateRow rowW t = saturateRow rowW s from h, hrow]
    _ = s := rfl

theorem sameSaturated_sim {rowW : Nat} (hw : 16 ≤ rowW) : StepSim (sameSaturated rowW) where
  status h := h.congr State.status
  len h := h.congr State.len
  pos h := h.congr State.pos
  stream h := h.congr State.stream
  valid {s t} h := by rw [← cursorValid_saturateRow hw t, h, cursorValid_saturateRow hw s]
  latch h := h.congr fun u : State => ({ u with unitPos := u.pos } : State)
  byte h := h.congr fun u : State => ({ u with pos := u.pos + 1 } : State)
  painted i _ _ hvalid h := congrArg (saturateRow rowW ∘ painted i) (eq_of_sameSaturated hw hvalid h)
  jump dX dY {s t} h := by rw [sameSaturated, ← saturateRow_jump, h, saturateRow_jump]
  halt c _ _ h := h.congr (halt c)

/-- A step from the saturated state is the step, saturated. -/
theorem finiteStep_saturateRow {rowW : Nat} (hw : 16 ≤ rowW) (s : State) :
    finiteStep rowW (saturateRow rowW s) = mapNext (saturateRow rowW) (step s) := by
  rw [finiteStep]
  obtain ⟨s', t', hs, ht, h⟩ | ⟨e, hs, ht⟩ := (sameSaturated_sim hw).step (sameSaturated_saturateRow rowW s)
  · rw [hs, ht]
    exact congrArg Host.Outcome.next h
  · rw [hs, ht]

/-! ### Another stream memory (R96) -/

/-- The stream memory replaced. -/
def withStream (m : Memory Byte) (s : State) : State := { s with stream := m }

/-- A flow with the state it ends in changed. -/
def Flow.mapState {α : Type} (g : State → State) : Flow α → Flow α
  | .go a s => .go a (g s)
  | .stop s => .stop (g s)
  | .fault e => .fault e

theorem Flow.outcome_mapState {α : Type} (g : State → State) (f : Flow α) :
    (f.mapState g).outcome = mapNext g f.outcome := by
  cases f <;> rfl

/-- From s to t the operation moved pos on, kept the stream, and would do the same over any stream memory that agrees on
the bytes between. -/
def readsOnlyConsumed {α : Type} (f : State → Flow α) (s t : State) : Prop :=
  s.pos ≤ t.pos ∧ t.stream = s.stream ∧
    ∀ m : Memory Byte, (∀ a, s.pos ≤ a → a < t.pos → m.read a = s.stream.read a) →
      f (withStream m s) = (f s).mapState (withStream m)

/-- An operation that reads no stream byte and leaves pos and the stream is such. -/
theorem readsOnlyConsumed_of_no_read {α : Type} {f : State → Flow α} {s t : State} (hpos : t.pos = s.pos)
    (hstream : t.stream = s.stream) (h : ∀ m, f (withStream m s) = (f s).mapState (withStream m)) :
    readsOnlyConsumed f s t :=
  ⟨hpos.ge, hstream, fun m _ => h m⟩

theorem readsOnlyConsumed_of_go {α β : Type} {f : State → Flow α} {k : α → State → Flow β} {a : α} {s u t : State}
    (hgo : f s = .go a u) (hf : readsOnlyConsumed f s u) (hk : readsOnlyConsumed (k a) u t) :
    readsOnlyConsumed (fun v => (f v).andThen k) s t := by
  obtain ⟨hpos, hstream, hfm⟩ := hf
  obtain ⟨hpos', hstream', hkm⟩ := hk
  refine ⟨hpos.trans hpos', hstream'.trans hstream, fun m hagree => ?_⟩
  have hfirst := hfm m fun b hb hlt => hagree b hb (hlt.trans_le hpos')
  have hthen := hkm m fun b hb hlt => hstream ▸ hagree b (hpos.trans hb) hlt
  simp only [hfirst, hgo, Flow.mapState, Flow.andThen_go, hthen]

theorem readsOnlyConsumed_of_stop {α β : Type} {f : State → Flow α} {k : α → State → Flow β} {s t : State}
    (hstop : f s = .stop t) (hf : readsOnlyConsumed f s t) :
    readsOnlyConsumed (fun v => (f v).andThen k) s t := by
  obtain ⟨hpos, hstream, hfm⟩ := hf
  refine ⟨hpos, hstream, fun m hagree => ?_⟩
  simp only [hfm m hagree, hstop, Flow.mapState, Flow.andThen_stop]

theorem readsOnlyConsumed_andThen {α β : Type} {f : State → Flow α} {k : α → State → Flow β}
    (hf : ∀ s, (f s).Ends (readsOnlyConsumed f) s) (hk : ∀ a s, (k a s).Ends (readsOnlyConsumed (k a)) s) (s : State) :
    ((f s).andThen k).Ends (readsOnlyConsumed fun u => (f u).andThen k) s := by
  have hfs := hf s
  cases hend : f s with
  | go a u =>
    rw [hend] at hfs
    have hku := hk a u
    rw [Flow.andThen_go]
    cases hend' : k a u with
    | go b t => rw [hend'] at hku; exact readsOnlyConsumed_of_go hend hfs hku
    | stop t => rw [hend'] at hku; exact readsOnlyConsumed_of_go hend hfs hku
    | fault e => trivial
  | stop t => rw [hend] at hfs; exact readsOnlyConsumed_of_stop hend hfs
  | fault e => trivial

theorem withStream_ignoresCursor (m : Memory Byte) : IgnoresCursor (withStream m) :=
  ⟨fun _ => rfl, fun _ => rfl, fun _ => rfl, fun _ _ _ => rfl⟩

theorem painted_withStream (m : Memory Byte) (i : Byte) (s : State) :
    painted i (withStream m s) = withStream m (painted i s) :=
  (withStream_ignoresCursor m).advance (writePixel (cursorAddr s) (resolve s i) s)

theorem readsOnlyConsumed_closed : FlowClosed fun _ f => ∀ s, (f s).Ends (readsOnlyConsumed f) s where
  pure _ _ := readsOnlyConsumed_of_no_read rfl rfl fun _ => rfl
  andThen := readsOnlyConsumed_andThen
  latchUnitPos s := by
    have hend (m : Memory Byte) : latchUnitPos (withStream m s) = (latchUnitPos s).mapState (withStream m) := by
      rw [latchUnitPos, latchUnitPos, apply_ite (Flow.mapState (withStream m))]
      rfl
    by_cases h : s.len ≤ s.pos
    · rw [latchUnitPos, if_pos h]
      exact readsOnlyConsumed_of_no_read rfl rfl hend
    · rw [latchUnitPos, if_neg h]
      exact readsOnlyConsumed_of_no_read rfl rfl hend
  nextByte s := by
    obtain ⟨h, e⟩ | ⟨h, v, hread, e⟩ | ⟨-, -, e⟩ := nextByte_cases s <;> rw [e]
    · refine readsOnlyConsumed_of_no_read rfl rfl fun m => ?_
      rw [e]
      exact nextByte_of_end (s := withStream m s) h
    · refine ⟨Nat.le_succ _, rfl, fun m hagree => ?_⟩
      rw [e]
      exact nextByte_of_read (s := withStream m s) h ((hagree s.pos le_rfl (Nat.lt_succ_self _)).trans hread)
    · trivial
  paint i s := by
    cases hvalid : cursorValid s with
    | true =>
      rw [paint_eq_painted i hvalid]
      refine readsOnlyConsumed_of_no_read (painted_pos i s) (painted_stream i s) fun m => ?_
      rw [paint_eq_painted i hvalid, paint_eq_painted (s := withStream m s) i hvalid, painted_withStream, Flow.mapState]
    | false =>
      rw [paint_of_invalid i hvalid]
      refine readsOnlyConsumed_of_no_read rfl rfl fun m => ?_
      rw [paint_of_invalid i hvalid, paint_of_invalid (s := withStream m s) i hvalid]
      rfl
  jump dX dY s := readsOnlyConsumed_of_no_read (f := fun s => Flow.go () (jump dX dY s)) (jump_pos dX dY s)
    (jump_stream dX dY s) fun m => (congrArg (Flow.go ()) ((withStream_ignoresCursor m).jump dX dY s) :)
  halt c s := readsOnlyConsumed_of_no_read (f := fun s => (Flow.stop (halt c s) : Flow Unit)) (t := halt c s) rfl rfl
    fun _ => rfl

end Sys2Proof.Machine

namespace Sys2Proof
open Machine

/-- Settles O43: the rows saturate alike at every step. -/
theorem saturatingRowIsExact : Obligations.SaturatingRowIsExact := by
  unfold Obligations.SaturatingRowIsExact
  intro rowW k s hw
  induction k generalizing s with
  | zero => rfl
  | succ k ih =>
    rw [runWith, runWith, finiteStep_saturateRow hw]
    cases step s with
    | next t => exact ih t
    | fault e => rfl
    | refused r => rfl

/-- Settles O44: states that differ in their planes step alike. -/
theorem planesInfluenceNothing : Obligations.PlanesInfluenceNothing := by
  unfold Obligations.PlanesInfluenceNothing
  intro s p
  obtain ⟨s', t', hs, ht, q, rfl⟩ | ⟨e, hs, ht⟩ := differInPlanes_sim.step (s := s) ⟨p, rfl⟩
  · exact ⟨fun t hstep => ⟨q, Host.Outcome.next.inj (hs.symm.trans hstep) ▸ ht⟩,
      fun f hstep => nomatch hs.symm.trans hstep⟩
  · exact ⟨fun t hstep => (nomatch hs.symm.trans hstep), fun f hstep => (hstep.symm.trans hs) ▸ ht⟩

/-- Settles O45: a step of a running block reads the bytes it consumes and no others; outside RUNNING it reads none. -/
theorem unconsumedBytesUnread : Obligations.UnconsumedBytesUnread := by
  unfold Obligations.UnconsumedBytesUnread
  intro s t m hstep hagree
  by_cases hrun : s.status = .running
  · have hends := readsOnlyConsumed_closed.unitFlow s
    rw [step_eq_unitFlow hrun] at hstep
    obtain ⟨-, -, hsame⟩ := hends.outcome hstep
    rw [step_eq_unitFlow (s := { s with stream := m }) hrun, ← withStream, hsame m hagree, Flow.outcome_mapState, hstep]
    rfl
  · rw [step_of_not_running hrun] at hstep
    rw [step_of_not_running (s := { s with stream := m }) hrun, Host.Outcome.next.inj hstep]

end Sys2Proof
end

section
/-! SUPPORT. The micro-step machine of 42_sequencer.md R97 against the unit step (R98): one lemma per kind of row,
then one per unit, over a state whose micro registers are set apart. -/

namespace Sys2Proof.Machine

/-! ### The micro registers set apart -/

/-- The state with these micro registers. -/
def atMicro (p : Phase) (r i d : Byte) (s : State) : State :=
  { s with phase := p, rem := r, idxLatch := i, dxLatch := d }

/-- Two outcomes that differ in the dead latches at most (R24). -/
def agreeOffLatches (o o' : Host.Outcome State Fault Refusal) : Prop :=
  mapNext forgetLatches o = mapNext forgetLatches o'

variable {p : Phase} {r i d : Byte} {s t : State}

theorem atMicro_ignoresCursor : IgnoresCursor (atMicro p r i d) :=
  ⟨fun _ => rfl, fun _ => rfl, fun _ => rfl, fun _ _ _ => rfl⟩

theorem painted_atMicro (idx : Byte) : painted idx (atMicro p r i d s) = atMicro p r i d (painted idx s) :=
  atMicro_ignoresCursor.advance (writePixel (cursorAddr s) (resolve s idx) s)

/-- R24: at a boundary the micro registers but the phase are dead. -/
theorem forgetLatches_atMicro (h : s.phase = p) : forgetLatches (atMicro p r i d s) = forgetLatches s := by
  subst h
  rfl

/-! ### A micro-step and what follows it -/

/-- What a run of micro-steps does after one: it ends at a boundary, else it goes on. -/
def microContinue (n : Nat) (t : State) : Host.Outcome State Fault Refusal :=
  if atBoundary t then .next t else microRun n t

theorem microContinue_of_boundary (n : Nat) (h : atBoundary t = true) : microContinue n t = .next t := if_pos h

theorem microContinue_of_inside (n : Nat) (h : atBoundary t = false) : microContinue n t = microRun n t :=
  if_neg (Bool.eq_false_iff.1 h)

theorem microRun_succ (n : Nat) (hrun : t.status = .running) :
    microRun (n + 1) t = match microRow t with
      | .go _ u => microContinue n u
      | .stop u => microContinue n u
      | .fault e => .fault e := by
  rw [microRun, microStep, if_pos hrun]
  cases microRow t <;> rfl

/-- R97: a row that fetches a byte, and what the unit step does with that byte. -/
theorem microRun_byteRow {n : Nat} {g : Byte → State → State} {f : Byte → State → Flow Unit}
    (hrun : t.status = .running)
    (hrow : microRow t = (nextByte (atMicro p r i d s)).andThen fun b u => .go () (g b u))
    (hgo : ∀ b, agreeOffLatches (microContinue n (g b (atMicro p r i d { s with pos := s.pos + 1 })))
      (f b { s with pos := s.pos + 1 }).outcome) :
    agreeOffLatches (microRun (n + 1) t) ((nextByte s).andThen f).outcome := by
  rw [microRun_succ n hrun, hrow]
  obtain ⟨h, e⟩ | ⟨h, v, hread, e⟩ | ⟨h, hread, e⟩ := nextByte_cases s <;> rw [e]
  · rw [nextByte_of_end (s := atMicro p r i d s) h]
    rfl
  · rw [nextByte_of_read (s := atMicro p r i d s) h hread]
    exact hgo v
  · rw [nextByte_of_unloaded (s := atMicro p r i d s) h hread]
    rfl

/-- R97: a row that paints, and what the unit step does after that paint. -/
theorem microRun_paintRow {n : Nat} {idx : Byte} {again : Phase} {f : State → Flow Unit} (hrun : s.status = .running)
    (hrow : microRow (atMicro p r i d s) =
      (paint idx (atMicro p r i d s)).andThen fun _ u => .go () (microAfterPaint again u))
    (hgo : agreeOffLatches
      (microContinue n (atMicro (if 0 < (r - 1#8).toNat then again else .fetchB0) (r - 1#8) i d (painted idx s)))
      (f (painted idx s)).outcome) :
    agreeOffLatches (microRun (n + 1) (atMicro p r i d s)) ((paint idx s).andThen fun _ => f).outcome := by
  rw [microRun_succ (t := atMicro p r i d s) n hrun, hrow]
  cases hvalid : cursorValid s with
  | true =>
    rw [paint_eq_painted idx hvalid, paint_eq_painted (s := atMicro p r i d s) idx hvalid, painted_atMicro]
    exact hgo
  | false =>
    rw [paint_of_invalid idx hvalid, paint_of_invalid (s := atMicro p r i d s) idx hvalid]
    rfl

/-! ### The units -/

theorem toNat_sub_one {n : Nat} (hr : r.toNat = n + 1) : (r - 1#8).toNat = n := by
  have := r.isLt
  rw [BitVec.toNat_sub_of_le (by rw [BitVec.le_def, hr]; simp), hr]
  simp

/-- R24: at the boundary after a unit the machine stops in the unit's state. -/
theorem microContinue_fetchB0 (n : Nat) (h : s.phase = .fetchB0) :
    agreeOffLatches (microContinue n (atMicro .fetchB0 r i d s)) (.next s) := by
  rw [microContinue_of_boundary (t := atMicro .fetchB0 r i d s) n rfl]
  exact congrArg Host.Outcome.next (forgetLatches_atMicro h)

/-- R97, R101: `rem` paints of the latched index. -/
theorem microContinue_encPaint {n k : Nat} (hrun : s.status = .running) (hphase : s.phase = .fetchB0) (hr : r.toNat = n)
    (hk : n ≤ k) :
    agreeOffLatches (microContinue k (atMicro (if 0 < r.toNat then .encPaint else .fetchB0) r i d s))
      (paintRun i n s).outcome := by
  induction n generalizing k r s with
  | zero => rw [hr]; exact microContinue_fetchB0 k hphase
  | succ n ih =>
    obtain ⟨k, rfl⟩ := Nat.exists_eq_add_of_le' (Nat.le_of_add_left_le hk)
    rw [if_pos (by omega), microContinue_of_inside _ rfl, paintRun]
    exact microRun_paintRow hrun rfl (ih ((painted_status i s).trans hrun) ((painted_phase i s).trans hphase)
      (toNat_sub_one hr) (Nat.le_of_succ_le_succ hk))

/-- R97, R102: `rem` fetches, each followed by the paint of the fetched literal. -/
theorem microContinue_absFetch {n k : Nat} (hrun : s.status = .running) (hphase : s.phase = .fetchB0) (hr : r.toNat = n)
    (hk : 2 * n ≤ k) :
    agreeOffLatches (microContinue k (atMicro (if 0 < r.toNat then .absFetch else .fetchB0) r i d s))
      (paintLiterals n s).outcome := by
  induction n generalizing k r i s with
  | zero => rw [hr]; exact microContinue_fetchB0 k hphase
  | succ n ih =>
    obtain ⟨k, rfl⟩ := Nat.exists_eq_add_of_le' (show 2 ≤ k by omega)
    rw [if_pos (by omega), microContinue_of_inside _ rfl, paintLiterals]
    refine microRun_byteRow hrun rfl fun lit => ?_
    show agreeOffLatches (microContinue (k + 1) (atMicro .absPaint r lit d { s with pos := s.pos + 1 })) _
    rw [microContinue_of_inside _ rfl]
    exact microRun_paintRow hrun rfl (ih ((painted_status lit _).trans hrun) ((painted_phase lit _).trans hphase)
      (toNat_sub_one hr) (by omega))

theorem fetchDelta_andThen {β : Type} (k : Byte × Byte → State → Flow β) (s : State) :
    (fetchDelta s).andThen k =
      (nextByte s).andThen fun b0 s1 => (nextByte s1).andThen fun b1 s2 => k (b0, b1) s2 := by
  simp only [fetchDelta, Flow.andThen_assoc, Flow.andThen_go]

/-- R97, R112: the two operand fetches, then the jump. -/
theorem microContinue_fetchDx {k : Nat} (hrun : s.status = .running) (hphase : s.phase = .fetchB0) (hk : 2 ≤ k) :
    agreeOffLatches (microContinue k (atMicro .fetchDx r i d s)) (execFlow .delta s).outcome := by
  obtain ⟨k, rfl⟩ := Nat.exists_eq_add_of_le' hk
  rw [microContinue_of_inside _ rfl, execFlow, fetchDelta_andThen]
  refine microRun_byteRow hrun rfl fun dX => ?_
  show agreeOffLatches (microContinue (k + 1) (atMicro .fetchDy r i dX { s with pos := s.pos + 1 })) _
  rw [microContinue_of_inside _ rfl]
  refine microRun_byteRow hrun rfl fun dY => ?_
  show agreeOffLatches (microContinue k { jump dX dY (atMicro .fetchDy r i dX { s with pos := s.pos + 1 + 1 }) with
    phase := .fetchB0 }) _
  rw [atMicro_ignoresCursor.jump]
  exact microContinue_fetchB0 (r := r) (i := i) (d := dX) (s := jump dX dY { s with pos := s.pos + 1 + 1 }) k
    ((jump_phase dX dY _).trans hphase)

/-- R97: what a dispatched unit does in micro-steps; an `ABS` of 253 literals takes the most. -/
theorem microContinue_dispatch {j : Instr} (hwf : j.wellFormed = true) (hrun : s.status = .running)
    (hphase : s.phase = .fetchB0) :
    agreeOffLatches (microContinue 506 (microDispatch j (atMicro p r i d s))) (execFlow j s).outcome := by
  cases j with
  | esc0 => rfl
  | endMarker => rfl
  | delta => exact microContinue_fetchDx hrun hphase (by decide)
  | abs n =>
    have h3 : 3 ≤ n.toNat := of_decide_eq_true hwf
    have hlt := n.isLt
    have hrem : (n - 2#8).toNat = absCount n :=
      BitVec.toNat_sub_of_le (by rw [BitVec.le_def]; exact Nat.le_of_succ_le h3)
    have hunit := microContinue_absFetch (i := i) (d := d) (k := 506) hrun hphase hrem (by rw [absCount]; omega)
    rwa [if_pos (by rw [hrem, absCount]; omega)] at hunit
  | enc count idx =>
    have h1 : 0 < count.toNat := of_decide_eq_true hwf
    have hlt := count.isLt
    have hunit := microContinue_encPaint (r := count) (i := idx) (d := d) (k := 506) hrun hphase rfl (by omega)
    rwa [if_pos h1] at hunit

/-- R97, R98: the two header rows, then the unit the header decodes to. -/
theorem agreeOffLatches_microUnit (hrun : s.status = .running) (hphase : s.phase = .fetchB0) :
    agreeOffLatches (microUnit s) (unitFlow s).outcome := by
  show agreeOffLatches (microRun (506 + 1 + 1) s) _
  by_cases hend : s.len ≤ s.pos
  · have hrow : microRow s = .stop (halt .streamExhausted s) := by
      rw [microRow, hphase]
      exact if_pos hend
    rw [microRun_succ _ hrun, hrow, unitFlow, latchUnitPos, if_pos hend]
    rfl
  · have hlatch : latchUnitPos s = .go () { s with unitPos := s.pos } := if_neg hend
    have hrow : microRow s = (nextByte { s with unitPos := s.pos }).andThen fun b0 u =>
        .go () { u with phase := .fetchB1 b0 } := by
      rw [microRow, hphase]
      exact if_neg hend
    rw [unitFlow, hlatch, Flow.andThen_go, fetchDelta_andThen]
    refine microRun_byteRow (p := s.phase) (r := s.rem) (i := s.idxLatch) (d := s.dxLatch) hrun hrow fun b0 => ?_
    show agreeOffLatches (microContinue (506 + 1) (atMicro (.fetchB1 b0) s.rem s.idxLatch s.dxLatch
      { s with unitPos := s.pos, pos := s.pos + 1 })) _
    rw [microContinue_of_inside _ rfl]
    exact microRun_byteRow hrun rfl fun b1 =>
      microContinue_dispatch (wellFormed_decode_and_encode_decode b0 b1).1 hrun hphase

end Sys2Proof.Machine

namespace Sys2Proof
open Machine

/-- Settles O42: the micro-steps of one unit are its header's two rows and the rows of its kind. -/
theorem microStepsMakeUnitStep : Obligations.MicroStepsMakeUnitStep := by
  unfold Obligations.MicroStepsMakeUnitStep
  intro s hrun hphase
  rw [step_eq_unitFlow hrun]
  exact agreeOffLatches_microUnit hrun hphase

end Sys2Proof
end

section
/-! SUPPORT. The host's moves (10_state.md R17, 70_reset_and_hazards.md R140 to R151): what loading a memory leaves,
that every move keeps the invariant, and the canonical form of memories (log entry 4). -/

namespace Sys2Proof.Machine

/-! ### The canonical form of a memory -/

theorem Memory.lookup_eq_none_of_not_mem {α : Type} {cells : List (Nat × α)} {a : Nat}
    (h : a ∉ cells.map Prod.fst) : Memory.lookup cells a = none := by
  induction cells with
  | nil => rfl
  | cons c rest ih =>
    obtain ⟨hne, hrest⟩ := not_or.1 (List.mem_cons.not.1 h)
    exact (if_neg (Ne.symm hne)).trans (ih hrest)

theorem Memory.mem_of_lookup {α : Type} {cells : List (Nat × α)} {a : Nat} {v : α}
    (h : Memory.lookup cells a = some v) : (a, v) ∈ cells := by
  induction cells with
  | nil => cases h
  | cons c rest ih =>
    rw [Memory.lookup] at h
    split at h
    · rename_i hk
      rw [← hk, ← Option.some.inj h]
      exact List.mem_cons_self
    · exact List.mem_cons_of_mem _ (ih h)

/-- In canonical form a listed value is one that is read and is not the fill. -/
theorem Memory.lookup_eq_of_wf {α : Type} [DecidableEq α] {m : Memory α} (h : m.wf) (a : Nat) :
    Memory.lookup m.cells a = if m.read a = m.fill then none else m.read a := by
  obtain ⟨-, hfill⟩ := h
  rw [Memory.read]
  cases hlookup : Memory.lookup m.cells a with
  | none => exact (if_pos rfl).symm
  | some v => exact (if_neg (Ne.symm (hfill (a, v) (Memory.mem_of_lookup hlookup)))).symm

/-- Memories that read alike have the same fill: some address is listed in neither. -/
theorem Memory.fill_eq_of_read_eq {α : Type} {m n : Memory α} (h : ∀ a, m.read a = n.read a) : m.fill = n.fill := by
  obtain ⟨a, ha⟩ := Infinite.exists_notMem_finset (m.cells.map Prod.fst ++ n.cells.map Prod.fst).toFinset
  rw [List.mem_toFinset, List.mem_append, not_or] at ha
  have hread := h a
  rwa [Memory.read, Memory.read, Memory.lookup_eq_none_of_not_mem ha.1, Memory.lookup_eq_none_of_not_mem ha.2] at hread

theorem Memory.eq_of_read_eq {α : Type} [DecidableEq α] {m n : Memory α} (hm : m.wf) (hn : n.wf)
    (h : ∀ a, m.read a = n.read a) : m = n := by
  have hfill := Memory.fill_eq_of_read_eq h
  have hcells : m.cells = n.cells := Memory.cells_ext hm.1 hn.1 fun a => by
    rw [Memory.lookup_eq_of_wf hm, Memory.lookup_eq_of_wf hn, h a, hfill]
  calc m = ⟨m.fill, m.cells⟩ := rfl
    _ = ⟨n.fill, n.cells⟩ := by rw [hfill, hcells]
    _ = n := rfl

/-! ### Loading a memory -/

theorem hostLoadStream_eq_some {a : Nat} {bytes : List Byte} {s t : State} :
    hostLoadStream a bytes s = some t ↔ s.status ≠ .running ∧ t = { s with stream := s.stream.writeList a bytes } := by
  rw [hostLoadStream, Option.ite_none_left_eq_some, Option.some.injEq]
  exact and_congr_right fun _ => eq_comm

theorem hostLoadPalette_eq_some {i : Byte} {c : Color} {s t : State} :
    hostLoadPalette i c s = some t ↔ s.status ≠ .running ∧ t = { s with palette := s.palette.write i.toNat c } := by
  rw [hostLoadPalette, Option.ite_none_left_eq_some, Option.some.injEq]
  exact and_congr_right fun _ => eq_comm

theorem paletteEntry_of_read {s : State} {i : Byte} {c : Color} (h : s.palette.read i.toNat = some c) :
    paletteEntry s i = c := by
  rw [paletteEntry, h]

/-- R80: after one entry is loaded its index resolves to it, every other index as before. -/
theorem paletteEntry_palette_write (s : State) (i j : Byte) (c : Color) :
    paletteEntry { s with palette := s.palette.write i.toNat c } j = if j = i then c else paletteEntry s j := by
  by_cases h : j = i
  · rw [if_pos h, h]
    exact paletteEntry_of_read (Memory.read_write_same _ _ _)
  · have hne : i.toNat ≠ j.toNat := fun e => h (BitVec.eq_of_toNat_eq e.symm)
    rw [if_neg h, paletteEntry, paletteEntry, Memory.read_write_other _ _ hne]

/-! ### The invariant -/

theorem inv_reset : Inv State.reset :=
  ⟨⟨Memory.wf_blank, Memory.wf_blank, Memory.wf_blank, Memory.wf_blank, Memory.wf_blank⟩,
    ⟨fun _ h => (List.not_mem_nil h).elim, fun _ h => (List.not_mem_nil h).elim, fun _ h => (List.not_mem_nil h).elim⟩,
    fun h => absurd rfl h, ⟨by decide, fun h => (by cases h), fun _ => rfl⟩, le_rfl, le_rfl, fun h => (by cases h)⟩

/-- R140: the reset state meets the invariant whatever the epoch is. -/
theorem inv_hardwareReset (s : State) : Inv (hardwareReset s) := inv_reset

/-- R146: an accepted start establishes the invariant from memories in canonical form. -/
theorem inv_startSession {s : State} (hstream : s.stream.wf) (hpalette : s.palette.wf) (hdim : s.dimReg ≠ 0#16) :
    Inv (startSession s) := by
  have hpos : 0 < s.dimReg.toNat := Nat.pos_of_ne_zero fun h => hdim (BitVec.eq_of_toNat_eq h)
  exact ⟨⟨hstream, hpalette, Memory.wf_filled _, Memory.wf_filled _, Memory.wf_filled _⟩,
    ⟨fun _ h => (List.not_mem_nil h).elim, fun _ h => (List.not_mem_nil h).elim, fun _ h => (List.not_mem_nil h).elim⟩,
    fun _ => hpos, ⟨by simp, fun h => (by cases h), fun _ => rfl⟩, le_rfl, Nat.zero_le _, fun h => (by cases h)⟩

theorem inv_startCommand {s : State} (h : Inv s) : Inv (startCommand s) := by
  rw [startCommand]
  split
  · exact h
  · rename_i haccepted
    obtain ⟨⟨hstream, hpalette, -⟩, -⟩ := h
    exact inv_startSession hstream hpalette fun hd => haccepted (.inr hd)

/-- The invariant does not see the host registers. -/
theorem inv_hostWrite (w : Config.Widths) (r : Reg) (v : Word32) {s : State} (h : Inv s) : Inv (hostWrite w r v s) := by
  cases r with
  | ctrl => rw [hostWrite]; split; exacts [inv_startCommand h, h]
  | dim => rw [hostWrite]; split; exacts [h, h]
  | streamLen => rw [hostWrite]; split; exacts [h, h]
  | status | pos | unitPos | curRow | curCol => exact h

/-- The invariant sees the stream and palette memories by their canonical form only. -/
theorem inv_of_loaded {s t : State} (h : Inv s) (hstream : t.stream.wf) (hpalette : t.palette.wf)
    (ht : t = { s with
      stream := t.stream, palette := t.palette, dimReg := t.dimReg, streamLenReg := t.streamLenReg }) : Inv t := by
  obtain ⟨⟨-, -, hplanes⟩, hrest⟩ := h
  rw [ht]
  exact ⟨⟨hstream, hpalette, hplanes⟩, hrest⟩

end Sys2Proof.Machine

namespace Sys2Proof
open Machine

/-- Settles O35: a start establishes the invariant anew, reset too, and every other move leaves what it speaks of or
writes a memory in canonical form. -/
theorem hostMovesKeepInvariant : Obligations.HostMovesKeepInvariant := by
  unfold Obligations.HostMovesKeepInvariant
  intro s hinv
  obtain ⟨⟨hstream, hpalette, -⟩, -⟩ := id hinv
  refine ⟨inv_startCommand hinv, inv_hardwareReset s, fun w r v => inv_hostWrite w r v hinv, fun a bytes t h => ?stream,
    fun i c t h => ?palette, fun w l file t h => ?file⟩
  case stream =>
    obtain ⟨-, rfl⟩ := hostLoadStream_eq_some.1 h
    exact inv_of_loaded hinv (Memory.wf_writeList _ _ hstream) hpalette rfl
  case palette =>
    obtain ⟨-, rfl⟩ := hostLoadPalette_eq_some.1 h
    exact inv_of_loaded hinv hstream (Memory.wf_write _ _ hpalette) rfl
  case file =>
    obtain ⟨im, -, -, -, -, rfl⟩ := loadFile_eq_loaded.1 h
    exact inv_of_loaded hinv (Memory.wf_writeList _ _ hstream) (Memory.wf_writeList _ _ hpalette) rfl

/-- Settles O33: the invariant at reset. -/
theorem resetMeetsInvariant : Obligations.ResetMeetsInvariant := inv_reset

/-- Settles O17: the palette lookup after one entry is loaded. -/
theorem loadedEntryResolves : Obligations.LoadedEntryResolves := by
  unfold Obligations.LoadedEntryResolves
  intro i c s t h
  obtain ⟨-, rfl⟩ := hostLoadPalette_eq_some.1 h
  refine ⟨?_, fun j hj => ?_⟩
  · rw [resolve, paletteEntry_palette_write, if_pos rfl, Color.rgb]
  · rw [resolve, paletteEntry_palette_write, if_neg hj, resolve]

/-- Settles O41: the fill is what an unlisted address reads, and the listed cells are the reads that differ from it. -/
theorem equalReadsEqualMemories : Obligations.EqualReadsEqualMemories := by
  unfold Obligations.EqualReadsEqualMemories
  exact fun α _ m n hm hn h => Memory.eq_of_read_eq hm hn h

/-- Settles O46: the fields of the reset state; its planes are blank and it is not RUNNING. -/
theorem resetValues : Obligations.ResetValues := by
  unfold Obligations.ResetValues
  exact ⟨rfl, rfl, rfl, rfl, rfl, rfl, rfl, rfl, rfl, rfl, rfl,
    fun a => ⟨Memory.read_blank a, Memory.read_blank a, Memory.read_blank a⟩, step_of_not_running (by decide)⟩

/-- Settles O47: the reset input is defined as that state. -/
theorem hardwareResetFromAnyState : Obligations.HardwareResetFromAnyState := by
  unfold Obligations.HardwareResetFromAnyState
  exact fun s => rfl

end Sys2Proof
end

section
/-! SUPPORT. The host's registers as numbers (10_state.md R16, R17), the packed words (20_memory.md R33), the loader
over the document's layout (70_reset_and_hazards.md R142 to R145) and the launch premises (R149). -/

namespace Sys2Proof.Machine

/-! ### Registers as numbers -/

theorem hostRead_of_not_running (w : Config.Widths) (r : Reg) {s : State} (h : s.status ≠ .running) :
    hostRead w r s = some (regValue w r s) :=
  if_neg fun hr => h hr.1

/-- R151: while RUNNING every register but STATUS has no defined value. -/
theorem hostRead_of_running (w : Config.Widths) {r : Reg} {s : State} (h : s.status = .running) (hr : r ≠ .status) :
    hostRead w r s = none :=
  if_pos ⟨h, hr⟩

theorem hostRead_status (w : Config.Widths) (s : State) : hostRead w .status s = some (regValue w .status s) :=
  if_neg fun hr => hr.2 rfl

theorem hostRead_toNat {w : Config.Widths} {r : Reg} {s : State} {n : Nat} (hstopped : s.status ≠ .running)
    (h : (regValue w r s).toNat = n) : (hostRead w r s).map BitVec.toNat = some n := by
  rw [hostRead_of_not_running w r hstopped, Option.map_some, h]

theorem toNat_zeroExtend_32 {n : Nat} (h : n ≤ 32) (x : BitVec n) : (x.zeroExtend 32).toNat = x.toNat :=
  (BitVec.toNat_setWidth 32 x).trans
    (Nat.mod_eq_of_lt (x.isLt.trans_le (Nat.pow_le_pow_right two_pos h)))

/-- R16: STATUS as a number. -/
theorem regValue_status_toNat (w : Config.Widths) (s : State) : (regValue w .status s).toNat = s.status.code.toNat :=
  toNat_zeroExtend_32 (by decide) _

theorem regValue_dim_toNat (w : Config.Widths) (s : State) : (regValue w .dim s).toNat = s.dimReg.toNat :=
  toNat_zeroExtend_32 (by decide) _

theorem regValue_curCol_toNat (w : Config.Widths) (s : State) : (regValue w .curCol s).toNat = s.col.toNat :=
  toNat_zeroExtend_32 (by decide) _

/-- A number of at most 32 bits fits a register. -/
theorem toNat_ofNat_32 {k n : Nat} (hk : k ≤ 32) (h : n < 2 ^ k) : (BitVec.ofNat 32 n).toNat = n := by
  rw [BitVec.toNat_ofNat, Nat.mod_eq_of_lt (h.trans_le (Nat.pow_le_pow_right two_pos hk))]

theorem regValue_streamLen_toNat {w : Config.Widths} (hw : w.posW ≤ 32) (s : State) :
    (regValue w .streamLen s).toNat = s.streamLenReg.toNat % 2 ^ w.posW :=
  toNat_ofNat_32 hw (Nat.mod_lt _ (Nat.two_pow_pos _))

theorem regValue_pos_toNat {w : Config.Widths} (hw : w.posW ≤ 32) {s : State} (h : s.pos < 2 ^ w.posW) :
    (regValue w .pos s).toNat = s.pos := by
  rw [regValue, Nat.mod_eq_of_lt h, toNat_ofNat_32 hw h]

theorem regValue_unitPos_toNat {w : Config.Widths} (hw : w.posW ≤ 32) {s : State} (h : s.unitPos < 2 ^ w.posW) :
    (regValue w .unitPos s).toNat = s.unitPos := by
  rw [regValue, Nat.mod_eq_of_lt h, toNat_ofNat_32 hw h]

/-- R12: CUR_ROW shows the saturated row. -/
theorem regValue_curRow_toNat {w : Config.Widths} (hw : w.rowW ≤ 32) (s : State) :
    (regValue w .curRow s).toNat = min s.row (2 ^ w.rowW - 1) :=
  toNat_ofNat_32 hw ((Nat.min_le_right _ _).trans_lt (Nat.pred_lt (Nat.two_pow_pos _).ne'))

/-! ### Register writes outside RUNNING -/

theorem hostWrite_dim_of_not_running (w : Config.Widths) (v : Word32) {s : State} (h : s.status ≠ .running) :
    hostWrite w .dim v s = { s with dimReg := v.extractLsb' 0 16 } :=
  if_neg h

theorem hostWrite_streamLen_of_not_running (w : Config.Widths) (v : Word32) {s : State} (h : s.status ≠ .running) :
    hostWrite w .streamLen v s = { s with streamLenReg := BitVec.ofNat 32 (v.toNat % 2 ^ w.posW) } :=
  if_neg h

/-! ### The loader over the document's layout -/

theorem streamOffset_documentLayout : streamOffset Config.documentLayout = 1048 := rfl

/-- R143: dim is little-endian. -/
theorem parseDim_toNat (l : Config.HeaderLayout) (file : List Byte) :
    (parseDim l file).toNat =
      (fileByte file l.dimOffset).toNat + 256 * (fileByte file (l.dimOffset + 1)).toNat := by
  have hlow := (fileByte file l.dimOffset).isLt
  rw [parseDim, BitVec.toNat_append, ← Nat.shiftLeft_add_eq_or_of_lt hlow, Nat.shiftLeft_eq]
  omega

theorem parseDim_eq_zero_iff (l : Config.HeaderLayout) (file : List Byte) :
    parseDim l file = 0#16 ↔ fileByte file l.dimOffset = 0#8 ∧ fileByte file (l.dimOffset + 1) = 0#8 :=
  (headerWord_inj (c0 := 0#8) (c1 := 0#8)).trans and_comm

/-- The image parsed out of a file that is long enough (R142). -/
def imageOf (l : Config.HeaderLayout) (file : List Byte) : Image :=
  ⟨parseDim l file, (List.range Config.palEntries).map (parseEntry l file), file.drop (streamOffset l)⟩

theorem parseFile_documentLayout_of_long {file : List Byte} (h : 1048 ≤ file.length) :
    parseFile Config.documentLayout file = some (imageOf Config.documentLayout file) :=
  parseFile_of_long h (Nat.le_trans (by decide) h)

theorem imageOf_palette_length (l : Config.HeaderLayout) (file : List Byte) :
    (imageOf l file).palette.length = 256 := by
  rw [imageOf, List.length_map, List.length_range, Config.palEntries]

/-- R144: entry i of the parsed palette. -/
theorem imageOf_palette_getElem? (l : Config.HeaderLayout) (file : List Byte) {i : Nat} (h : i < 256) :
    (imageOf l file).palette[i]? = some (parseEntry l file i) := by
  rw [imageOf, List.getElem?_map, List.getElem?_range (n := Config.palEntries) h, Option.map_some]

theorem imageOf_stream_length (l : Config.HeaderLayout) (file : List Byte) :
    (imageOf l file).stream.length = file.length - streamOffset l :=
  List.length_drop

theorem imageOf_stream_getElem? (l : Config.HeaderLayout) (file : List Byte) (a : Nat) :
    (imageOf l file).stream[a]? = file[streamOffset l + a]? :=
  List.getElem?_drop

theorem loadFile_of_truncated (w : Config.Widths) {l : Config.HeaderLayout} {file : List Byte} (s : State)
    (h : parseFile l file = none) : loadFile w l file s = .truncatedHeader := by
  rw [loadFile, h]

/-- R143, R150, U21: the three reasons for which a whole file does not load. -/
theorem loadFile_of_outside {w : Config.Widths} {l : Config.HeaderLayout} {file : List Byte} {s : State} {im : Image}
    (h : parseFile l file = some im) (hout : im.dim = 0#16 ∨ s.status = .running ∨ 2 ^ w.posW ≤ im.stream.length) :
    loadFile w l file s = .outsideContract := by
  rw [loadFile, h]
  exact if_pos hout

/-- The state with an image loaded (R142, steps 2 to 5). -/
def loadImage (im : Image) (s : State) : State :=
  { s with
    dimReg := im.dim
    streamLenReg := BitVec.ofNat 32 im.stream.length
    palette := s.palette.writeList 0 im.palette
    stream := s.stream.writeList 0 im.stream }

theorem loadImage_frame (im : Image) (s : State) :
    loadImage im s = { s with
      dimReg := (loadImage im s).dimReg, streamLenReg := (loadImage im s).streamLenReg,
      palette := (loadImage im s).palette, stream := (loadImage im s).stream } :=
  rfl

theorem loadImage_palette_read (im : Image) (s : State) (i : Nat) :
    (loadImage im s).palette.read i = if i < im.palette.length then im.palette[i]? else s.palette.read i :=
  Memory.read_writeList_zero _ _ _

theorem loadImage_stream_read (im : Image) (s : State) (a : Nat) :
    (loadImage im s).stream.read a = if a < im.stream.length then im.stream[a]? else s.stream.read a :=
  Memory.read_writeList_zero _ _ _

/-- STREAM_LEN holds the length of a stream that fits POS_W bits. -/
theorem loadImage_streamLenReg_toNat {w : Config.Widths} (hw : w.posW ≤ 32) {im : Image}
    (h : im.stream.length < 2 ^ w.posW) (s : State) : (loadImage im s).streamLenReg.toNat = im.stream.length :=
  toNat_ofNat_32 hw h

/-- The one way a file loads, as the image loaded. -/
theorem loadFile_eq_loaded_image {w : Config.Widths} {l : Config.HeaderLayout} {file : List Byte} {s t : State} :
    loadFile w l file s = .loaded t ↔ ∃ im, parseFile l file = some im ∧ im.dim ≠ 0#16 ∧ s.status ≠ .running ∧
      im.stream.length < 2 ^ w.posW ∧ t = loadImage im s :=
  loadFile_eq_loaded

/-! ### The launch premises -/

/-- A relation that every primitive effect keeps holds over any number of steps. -/
theorem runWith_step_ends {R : State → State → Prop} (hR : StepClosed R) {k : Nat} {s t : State}
    (h : runWith step k s = .next t) : R s t := by
  induction k generalizing s with
  | zero => exact Host.Outcome.next.inj h ▸ hR.refl s
  | succ k ih =>
    rw [runWith] at h
    cases hstep : step s with
    | next u => rw [hstep] at h; exact hR.trans (step_ends hR hstep) (ih h)
    | fault e => rw [hstep] at h; cases h
    | refused r => rw [hstep] at h; cases h

/-- R84, R149: every cell below DIM has a pixel once a session is started. -/
theorem planesAllocated_of_any (s : State) : planesAllocated s := by
  intro r c hr hc
  rw [cellPixel_startSession hr hc]
  rfl

/-- R30, R149: a pixel write and the host's loads each reach one space. -/
theorem spacesDisjoint_of_any (s : State) : spacesDisjoint s := by
  refine ⟨fun _ _ => ⟨rfl, rfl⟩, fun a bytes t h => ?_, fun i c t h => ?_⟩
  · obtain ⟨-, rfl⟩ := hostLoadStream_eq_some.1 h
    exact ⟨rfl, rfl, rfl, rfl⟩
  · obtain ⟨-, rfl⟩ := hostLoadPalette_eq_some.1 h
    exact ⟨rfl, rfl, rfl, rfl⟩

/-- R23, R149: over a session the configuration stays what the start latched. -/
theorem configStable_of_any (s : State) : configStable s := by
  intro k t h
  rw [run_eq_runWith] at h
  have hsame : sameConfiguration (startSession s) t := runWith_step_ends sameConfiguration_closed h
  rw [hsame]
  exact ⟨rfl, rfl, rfl, rfl⟩

/-! ### Packed words (R33) -/

theorem extractLsb'_of_append_high {m n : Nat} (x : BitVec m) (y : BitVec n) (start len : Nat) :
    (x ++ y).extractLsb' (n + start) len = x.extractLsb' start len := by
  rw [BitVec.extractLsb'_append_eq_of_le (Nat.le_add_right _ _), Nat.add_sub_cancel_left]

/-! ### Offsets (R17) -/

/-- Every register's offset is one of the first eight multiples of 4. -/
theorem Reg.offset_eq (r : Reg) : ∃ k, k < 8 ∧ r.offset = 4 * k := by
  cases r with
  | ctrl => exact ⟨0, by decide, rfl⟩
  | status => exact ⟨1, by decide, rfl⟩
  | dim => exact ⟨2, by decide, rfl⟩
  | streamLen => exact ⟨3, by decide, rfl⟩
  | pos => exact ⟨4, by decide, rfl⟩
  | unitPos => exact ⟨5, by decide, rfl⟩
  | curRow => exact ⟨6, by decide, rfl⟩
  | curCol => exact ⟨7, by decide, rfl⟩

theorem Reg.atOffset_offset (r : Reg) : Reg.atOffset r.offset = some r := by
  cases r <;> rfl

theorem Reg.atOffset_eq_none {off : Nat} (h : ∀ k, k < 8 → off ≠ 4 * k) : Reg.atOffset off = none := by
  refine List.find?_eq_none.2 fun r _ hr => ?_
  obtain ⟨k, hk, hoff⟩ := r.offset_eq
  exact h k hk ((beq_iff_eq.1 hr).symm.trans hoff)

theorem hostReadAt_offset (w : Config.Widths) (r : Reg) (s : State) : hostReadAt w r.offset s = hostRead w r s := by
  rw [hostReadAt, Reg.atOffset_offset]

theorem hostWriteAt_offset (w : Config.Widths) (r : Reg) (v : Word32) (s : State) :
    hostWriteAt w r.offset v s = hostWrite w r v s := by
  rw [hostWriteAt, Reg.atOffset_offset]

end Sys2Proof.Machine

namespace Sys2Proof
open Machine

/-- Settles O50: each register's value as a number, and what a write leaves in the register read back. -/
theorem registerMapReadsAndWrites : Obligations.RegisterMapReadsAndWrites := by
  unfold Obligations.RegisterMapReadsAndWrites
  rintro w s ⟨-, hrowW, hposW⟩ hstopped
  have hread {r : Reg} {n : Nat} := hostRead_toNat (w := w) (r := r) (n := n) hstopped
  have hstatus {st : Status} (h : s.status = st) : (hostRead w .status s).map BitVec.toNat = some st.code.toNat :=
    hread (by rw [regValue_status_toNat, h])
  refine ⟨hread rfl, hstatus, hstatus, hstatus, hstatus, hstatus, hread (regValue_dim_toNat w s),
    hread (regValue_streamLen_toNat hposW s), fun h => hread (regValue_pos_toNat hposW h),
    fun h => hread (regValue_unitPos_toNat hposW h), hread (regValue_curRow_toNat hrowW s),
    hread (regValue_curCol_toNat w s),
    fun v => ?dim, fun v => ?streamLen, fun v h => if_neg (Bool.eq_false_iff.1 h), fun v => hostWrite_ctrl_of_bit0 w,
    fun r v hctrl hdim hlen => ?readOnly⟩
  case dim =>
    rw [hostWrite_dim_of_not_running w v hstopped]
    refine ⟨rfl, hostRead_toNat hstopped ?_⟩
    rw [regValue_dim_toNat, BitVec.extractLsb'_toNat, Nat.shiftRight_zero]
  case streamLen =>
    rw [hostWrite_streamLen_of_not_running w v hstopped]
    refine ⟨rfl, hostRead_toNat hstopped ?_⟩
    rw [regValue_streamLen_toNat hposW, toNat_ofNat_32 hposW (Nat.mod_lt _ (Nat.two_pow_pos _)), Nat.mod_mod]
  case readOnly =>
    cases r with
    | ctrl => exact absurd rfl hctrl
    | dim => exact absurd rfl hdim
    | streamLen => exact absurd rfl hlen
    | status | pos | unitPos | curRow | curCol => rfl

/-- Settles O51: every host move but the read of STATUS asks for a block that is not RUNNING. -/
theorem runningHidesAllButStatus : Obligations.RunningHidesAllButStatus := by
  unfold Obligations.RunningHidesAllButStatus
  intro w s hrun
  refine ⟨?status, fun r hr => hostRead_of_running w hrun hr, fun r c => ?cell, fun a bytes => if_pos hrun,
    fun i c => if_pos hrun⟩
  case status =>
    rw [hostRead_status, Option.map_some, regValue_status_toNat, hrun]
    rfl
  case cell => rw [hostReadCell, hrun, Status.isHalt, if_neg Bool.false_ne_true]

/-- Settles O52: the accepted start pre-fills the planes, and the halt of END leaves them. -/
theorem endMarkerAloneLeavesBackground : Obligations.EndMarkerAloneLeavesBackground := by
  unfold Obligations.EndMarkerAloneLeavesBackground
  intro s hstopped hdim hlen hholds
  have hne : s.dimReg ≠ 0#16 := fun h => absurd (h ▸ hdim) (by decide)
  have hready : bytesReady (startSession s) [0x00#8, 0x01#8] := ⟨hlen.ge, hholds⟩
  rw [startCommand_of_accepted hstopped hne]
  exact ⟨_, endHaltsSuccessfully.2 (startSession s) rfl hready, rfl, rfl, rfl, rfl,
    fun r c hr hc => cellPixel_startSession hr hc⟩

/-- Settles O53: each field of a packed word lies above the fields appended after it. -/
theorem packedWords : Obligations.PackedWords := by
  unfold Obligations.PackedWords
  refine ⟨fun c => ⟨?red, ?green, ?blue⟩, fun c => ⟨?r, ?g, ?b, ?a⟩⟩
  case red => exact (extractLsb'_of_append_high _ c.blue 8 8).trans BitVec.extractLsb'_append_eq_left
  case green => exact (extractLsb'_of_append_high _ c.blue 0 8).trans BitVec.extractLsb'_append_eq_right
  case blue => exact BitVec.extractLsb'_append_eq_right
  case r =>
    exact (extractLsb'_of_append_high _ c.a 16 8).trans
      ((extractLsb'_of_append_high _ c.b 8 8).trans BitVec.extractLsb'_append_eq_left)
  case g =>
    exact (extractLsb'_of_append_high _ c.a 8 8).trans
      ((extractLsb'_of_append_high _ c.b 0 8).trans BitVec.extractLsb'_append_eq_right)
  case b => exact (extractLsb'_of_append_high _ c.a 0 8).trans BitVec.extractLsb'_append_eq_right
  case a => exact BitVec.extractLsb'_append_eq_right

/-- Settles O54: the parse of a file by its length, field by field. -/
theorem loaderParsesHeader : Obligations.LoaderParsesHeader := by
  unfold Obligations.LoaderParsesHeader
  refine fun file => ⟨fun h => parseFile_of_short h, fun h => ⟨_, parseFile_documentLayout_of_long h, ?dim, ?length,
    fun i hi => ?entry, ?streamLength, fun a => ?stream⟩⟩
  case dim => exact parseDim_toNat Config.documentLayout file
  case length => exact imageOf_palette_length Config.documentLayout file
  case entry => exact imageOf_palette_getElem? Config.documentLayout file hi
  case streamLength =>
    rw [imageOf_stream_length, streamOffset_documentLayout]
    omega
  case stream => exact imageOf_stream_getElem? Config.documentLayout file a

/-- Settles O55: loading gives the first three premises; the next three hold of every state. -/
theorem loadedFileMeetsLaunchPremises : Obligations.LoadedFileMeetsLaunchPremises := by
  unfold Obligations.LoadedFileMeetsLaunchPremises
  rintro w l file s t ⟨-, -, hposW⟩ h
  obtain ⟨im, hparse, hdim, hstopped, hfit, rfl⟩ := loadFile_eq_loaded_image.1 h
  obtain ⟨-, -, him⟩ := parseFile_cases hparse
  obtain rfl : im = imageOf l file := him
  have hlen := loadImage_streamLenReg_toNat hposW hfit s
  refine ⟨?dimPositive, fun i => ?paletteLoaded, ⟨fun a ha => ?streamLoaded, hlen.trans_lt hfit⟩,
    planesAllocated_of_any _, spacesDisjoint_of_any _, configStable_of_any _, hstopped⟩
  case dimPositive => exact Nat.pos_of_ne_zero fun h0 => hdim (BitVec.eq_of_toNat_eq h0)
  case paletteLoaded =>
    have hi : i.toNat < (imageOf l file).palette.length := (imageOf_palette_length l file).symm ▸ i.isLt
    rw [loadImage_palette_read, if_pos hi, List.getElem?_eq_getElem hi, Option.isSome_some]
  case streamLoaded =>
    rw [hlen] at ha
    rw [loadImage_stream_read, if_pos ha, List.getElem?_eq_getElem ha, Option.isSome_some]

/-- Settles O56: the length of the file, then the three reasons not to load, then the one way to load. -/
theorem loadFilePlacesImage : Obligations.LoadFilePlacesImage := by
  unfold Obligations.LoadFilePlacesImage
  rintro w file s ⟨-, -, hposW⟩
  have hlength := imageOf_stream_length Config.documentLayout file
  have hpalette := imageOf_palette_length Config.documentLayout file
  have hzero := parseDim_eq_zero_iff Config.documentLayout file
  rw [streamOffset_documentLayout] at hlength
  refine ⟨fun h => loadFile_of_truncated w s (parseFile_of_short h), fun h hout => ?outside,
    fun h hdim hstopped hfit => ?loads⟩
  case outside =>
    exact loadFile_of_outside (parseFile_documentLayout_of_long h)
      (hout.imp hzero.2 (.imp_right fun hlong => by omega))
  case loads =>
    have hfit' : (imageOf Config.documentLayout file).stream.length < 2 ^ w.posW := by omega
    have hload := loadFile_eq_loaded_image.2
      ⟨_, parseFile_documentLayout_of_long h, hzero.not.2 (not_and_or.2 hdim), hstopped, hfit', rfl⟩
    refine ⟨_, hload, parseDim_toNat Config.documentLayout file, ?length, fun i hi => ?entry, fun a ha => ?byte,
      fun i hi => ?otherEntry, fun a ha => ?otherByte, loadImage_frame _ s⟩
    case length => rw [loadImage_streamLenReg_toNat hposW hfit']; omega
    case entry =>
      rw [loadImage_palette_read, if_pos (hpalette.symm ▸ hi)]
      exact imageOf_palette_getElem? Config.documentLayout file hi
    case byte =>
      rw [loadImage_stream_read, if_pos (by omega)]
      exact imageOf_stream_getElem? Config.documentLayout file a
    case otherEntry => rw [loadImage_palette_read, if_neg (by omega)]
    case otherByte => rw [loadImage_stream_read, if_neg (by omega)]

/-- Settles O57: the codes of the seven statuses. -/
theorem statusCodes : Obligations.StatusCodes := by
  unfold Obligations.StatusCodes
  refine ⟨⟨rfl, rfl, rfl, rfl, rfl, rfl, rfl⟩, fun st => ?halt, fun st => ?success, fun s => rfl⟩
  case halt => cases st <;> decide
  case success => cases st <;> decide

/-- Settles O58: the register at each offset, and none at the others. -/
theorem offsetAccesses : Obligations.OffsetAccesses := by
  unfold Obligations.OffsetAccesses
  refine ⟨fun w s v => ?mapped, fun w off v s h => ?unmapped⟩
  case mapped =>
    have haccess (r : Reg) :
        hostReadAt w r.offset s = hostRead w r s ∧ hostWriteAt w r.offset v s = hostWrite w r v s :=
      ⟨hostReadAt_offset w r s, hostWriteAt_offset w r v s⟩
    exact ⟨haccess .ctrl, haccess .status, haccess .dim, haccess .streamLen, haccess .pos, haccess .unitPos,
      haccess .curRow, haccess .curCol⟩
  case unmapped => rw [hostReadAt, hostWriteAt, Reg.atOffset_eq_none h]; exact ⟨rfl, rfl⟩

end Sys2Proof
end
